-- ==== Sys2Proof/Word.lean ====
section
/-! DEFINITION. The word types of the LFE block (00_scope.md R7 to R9, 30_encoding.md R80 to R84). -/

namespace Sys2Proof

/-- One byte on the byte stream port, `tx_data[7:0]` (10_state.md R31). -/
abbrev Byte := BitVec 8

/-- One channel of a colour: 8 bits, unsigned (00_scope.md R7). -/
abbrev Channel := BitVec 8

/-- A colour word: red in bits 23:16, green in 15:8, blue in 7:0 (00_scope.md R9). -/
abbrev Color := BitVec 24

/-- A pixel index in physical wiring order, 0..63 (30_encoding.md R82). -/
abbrev PixelIndex := BitVec 6

/-- A ratio or multiplier operand `R`, standing for `R / 65536` (30_encoding.md R84). -/
abbrev Ratio := BitVec 17

/-- A command word `CW[95:0]` (30_encoding.md R80). -/
abbrev CommandWord := BitVec 96

/-- The position counter `POS`, 11 bits (10_state.md R25). -/
abbrev Position := BitVec 11

end Sys2Proof
end

