-- ==== Sys2Proof/Config.lean ====
section
/-! DEFINITION. The one parameter the spec leaves open, `FB_RESET`. Every other quantity of table T-R7 (00_scope.md R7)
is a constant of the hardware, written where it is used: the source forbids turning N_PIX into a parameter. -/

namespace Sys2Proof.Config

/-- `FB_RESET` (10_state.md R38, 92_eei_decisions.md D20): the word pixel `i` holds after the `n`-th reset, a FREE
VALUE: no rule fixes it, it is fresh at each reset (70_reset_and_hazards.md R221) and stable until written.
Mark: DESIGN CHOICE (the form of the free value), notes/assumptions/1.md; safe. -/
opaque fbReset (n : Nat) (i : Fin 64) : Color

end Sys2Proof.Config
end

