-- ==== Sys2Proof/Syntax.lean ====
section
/-! DEFINITION. The nine commands of the LFE command set (spec/opcode_table.json; 30_encoding.md R85, R86), each
with exactly the operand fields its format reads, at the widths of 30_encoding.md R81. An operand field that a
command ignores (R88 (c)) is no argument of its constructor. -/

namespace Sys2Proof

/-- A command of the block: one constructor per row of the opcode table. -/
inductive Instr where
  /-- `NOP` (41_pixel_access.md R145). -/
  | nop
  /-- `ADD #a, #b` (40_color_alu.md R113). -/
  | add (a b : Color)
  /-- `LERP #a, #b, r` (40_color_alu.md R116). -/
  | lerp (a b : Color) (r : Ratio)
  /-- `FADE #a, r` (40_color_alu.md R121). -/
  | fade (a : Color) (r : Ratio)
  /-- `WRPIX i, #c` (41_pixel_access.md R141). -/
  | wrpix (i : PixelIndex) (c : Color)
  /-- `RDPIX i` (41_pixel_access.md R142). -/
  | rdpix (i : PixelIndex)
  /-- `STRES i` (41_pixel_access.md R143). -/
  | stres (i : PixelIndex)
  /-- `FILL #c` (41_pixel_access.md R144). -/
  | fill (c : Color)
  /-- `ENCODE` (42_frame_encoder.md R166). -/
  | encode
  deriving DecidableEq, Repr

end Sys2Proof
end

