-- ==== Sys2Proof/WellFormed.lean ====
section
/-! DEFINITION. Which command words are well formed. Every term of `Instr` is well formed by its types (each field
has the width the encoding gives it), so the checks are on the 96-bit word: they are written from the masks and the
ignored fields of spec/opcode_table.json (30_encoding.md R88, R89), independently of the decoder. -/

namespace Sys2Proof

/-- The bits of `OP`, `RSV0` and `RSV1` (30_encoding.md R89). -/
def CommandWord.mask : CommandWord := 0xFF000000C0000000FFFE0000#96

/-- The `match` value of opcode number `op`: the opcode in bits 95:88, zero elsewhere (30_encoding.md R89). -/
def CommandWord.matchOf (op : Nat) : CommandWord := BitVec.ofNat 96 op <<< 88

/-- The opcode is one of the nine defined ones, `0x00` to `0x08` (30_encoding.md R86). -/
def CommandWord.opcodeDefined (w : CommandWord) : Bool := (w >>> 88).toNat ≤ 8

/-- `RSV0`, `CW[63:62]`, is zero (30_encoding.md R88 (b)). -/
def CommandWord.reserved0Clear (w : CommandWord) : Bool := w &&& 0xC000000000000000#96 == 0#96

/-- `RSV1`, `CW[31:17]`, is zero (30_encoding.md R88 (b)). -/
def CommandWord.reserved1Clear (w : CommandWord) : Bool := w &&& 0xFFFE0000#96 == 0#96

/-- The word selects one of the nine commands: it raises no IllegalCommand (30_encoding.md R87). -/
def CommandWord.wellFormed (w : CommandWord) : Bool :=
  CommandWord.opcodeDefined w && CommandWord.reserved0Clear w && CommandWord.reserved1Clear w

/-- The bits that the command with opcode number `op` reads: `OP` and the fields of its format, that is, every
operand bit the table does not list under `ignored_fields` (30_encoding.md R85). -/
def CommandWord.usedMask : Nat → CommandWord
  | 1 => 0xFFFFFFFF00FFFFFF00000000#96
  | 2 => 0xFFFFFFFF00FFFFFF0001FFFF#96
  | 3 => 0xFFFFFFFF000000000001FFFF#96
  | 4 => 0xFFFFFFFF3F00000000000000#96
  | 5 => 0xFF0000003F00000000000000#96
  | 6 => 0xFF0000003F00000000000000#96
  | 7 => 0xFFFFFFFF0000000000000000#96
  | _ => 0xFF0000000000000000000000#96

/-- The word is the canonical encoding of its command: well formed, with every unused operand field zero
(30_encoding.md R88 (c)). -/
def CommandWord.canonical (w : CommandWord) : Bool :=
  CommandWord.wellFormed w && (w &&& CommandWord.usedMask (w >>> 88).toNat == w)

end Sys2Proof
end

