-- ==== Sys2Proof/Decode.lean ====
section
/-! DEFINITION. The decoder of a command word, total on all 2^96 words and rejecting by name (30_encoding.md R84,
R87), and after it the encoder that gives the canonical word of a command (30_encoding.md R81, R88 (c)). -/

namespace Sys2Proof

/-- Why a command word selects no command (30_encoding.md R87; 60_exceptions.md R191). -/
inductive DecodeReject where
  /-- `OP > 0x08`. -/
  | illegalOpcode
  /-- `OP ≤ 0x08` and `RSV0` or `RSV1` nonzero. -/
  | reservedBits
  deriving DecidableEq, Repr

/-- `OP = CW[95:88]` (30_encoding.md R81). -/
def fieldOp (w : CommandWord) : BitVec 8 := w.extractLsb' 88 8

/-- `A = CW[87:64]`, used as it stands (30_encoding.md R84). -/
def fieldA (w : CommandWord) : Color := w.extractLsb' 64 24

/-- `RSV0 = CW[63:62]`. -/
def fieldRsv0 (w : CommandWord) : BitVec 2 := w.extractLsb' 62 2

/-- `IDX = CW[61:56]`. -/
def fieldIdx (w : CommandWord) : PixelIndex := w.extractLsb' 56 6

/-- `B = CW[55:32]`. -/
def fieldB (w : CommandWord) : Color := w.extractLsb' 32 24

/-- `RSV1 = CW[31:17]`. -/
def fieldRsv1 (w : CommandWord) : BitVec 15 := w.extractLsb' 17 15

/-- `R = CW[16:0]`, not clamped on the way in (30_encoding.md R84). -/
def fieldR (w : CommandWord) : Ratio := w.extractLsb' 0 17

/-- The opcode map (30_encoding.md R86), each command reading only the fields of its format (R85). -/
def decodeOperands (w : CommandWord) : Nat → Option Instr
  | 0 => some .nop
  | 1 => some (.add (fieldA w) (fieldB w))
  | 2 => some (.lerp (fieldA w) (fieldB w) (fieldR w))
  | 3 => some (.fade (fieldA w) (fieldR w))
  | 4 => some (.wrpix (fieldIdx w) (fieldA w))
  | 5 => some (.rdpix (fieldIdx w))
  | 6 => some (.stres (fieldIdx w))
  | 7 => some (.fill (fieldA w))
  | 8 => some .encode
  | _ => none

/-- The decode order of 30_encoding.md R87: the opcode check first, then the reserved bits, then the command. -/
def decode (w : CommandWord) : Except DecodeReject Instr :=
  match decodeOperands w (fieldOp w).toNat with
  | none => .error .illegalOpcode
  | some i => if fieldRsv0 w = 0#2 ∧ fieldRsv1 w = 0#15 then .ok i else .error .reservedBits

/-- The command word with the given fields and zero reserved bits (30_encoding.md R81). -/
def packWord (op : BitVec 8) (a : Color) (idx : PixelIndex) (b : Color) (r : Ratio) : CommandWord :=
  op ++ a ++ 0#2 ++ idx ++ b ++ 0#15 ++ r

/-- The opcode number of a command (30_encoding.md R86). -/
def Instr.opcode : Instr → BitVec 8
  | .nop => 0x00#8
  | .add _ _ => 0x01#8
  | .lerp _ _ _ => 0x02#8
  | .fade _ _ => 0x03#8
  | .wrpix _ _ => 0x04#8
  | .rdpix _ => 0x05#8
  | .stres _ => 0x06#8
  | .fill _ => 0x07#8
  | .encode => 0x08#8

/-- The canonical command word of a command: every unused operand field zero (30_encoding.md R88 (c)). -/
def encodeInstr : Instr → CommandWord
  | .nop => packWord 0x00#8 0#24 0#6 0#24 0#17
  | .add a b => packWord 0x01#8 a 0#6 b 0#17
  | .lerp a b r => packWord 0x02#8 a 0#6 b r
  | .fade a r => packWord 0x03#8 a 0#6 0#24 r
  | .wrpix i c => packWord 0x04#8 c i 0#24 0#17
  | .rdpix i => packWord 0x05#8 0#24 i 0#24 0#17
  | .stres i => packWord 0x06#8 0#24 i 0#24 0#17
  | .fill c => packWord 0x07#8 c 0#6 0#24 0#17
  | .encode => packWord 0x08#8 0#24 0#6 0#24 0#17

/-- The command word whose low `nbits` bits are those of `w` and whose other bits are zero: the table numbers the
bits of the one 96-bit vector as 30_encoding.md R81 does, bit 0 least significant. -/
def tableWord (nbits w : Nat) : CommandWord := BitVec.ofNat 96 (w % 2 ^ nbits)

/-- The command the decoder reads from a word numbered as spec/opcode_table.json numbers it. -/
def decodeTableWord (nbits w : Nat) : Option Instr :=
  match decode (tableWord nbits w) with
  | .ok i => some i
  | .error _ => none

end Sys2Proof
end

