-- ==== Sys2Proof/Machine/State.lean ====
section
/-! DEFINITION. The state of the block as plain data (10_state.md table T-R21), the output stream, and the inputs the
environment has in store for the coming steps (10_state.md R38); the stops; the state after reset. -/

namespace Sys2Proof.Machine

/-- `MODE` (10_state.md R26): the encoding 3 is unused and unreachable, so it is no value (93 U10). -/
inductive Mode where
  /-- IDLE (0): the block takes commands. -/
  | idle
  /-- BUSY (1): a frame is being emitted. -/
  | busy
  /-- FAULT (2): an illegal command was presented; nothing happens until reset. -/
  | fault
  deriving DecidableEq, Repr

/-- `CAUSE` (10_state.md R28, 60_exceptions.md R191): the code 3 is unused and unreachable, so it is no value. -/
inductive Cause where
  /-- 0: the value outside FAULT. -/
  | none
  /-- 1: ILLEGAL_OPCODE. -/
  | illegalOpcode
  /-- 2: RESERVED_BITS. -/
  | reservedBits
  deriving DecidableEq, Repr

/-- What the environment drives on the one-bit inputs during one step (10_state.md R31, R33). -/
structure Pins where
  /-- `rst`: the reset source asserts reset. -/
  rst : Bool
  /-- `tx_ready`: the sink is ready for a byte. -/
  txReady : Bool
  deriving DecidableEq, Repr

/-- The frame buffer `FB`: 64 words of 24 bits, index = physical wiring order (10_state.md R23, 20_memory.md R51). -/
abbrev FrameBuffer := Vector Color 64

/-- Why the machine stops. No command raises one: the spec's only exception, IllegalCommand, is taken as a next
state with `MODE = FAULT` (60_exceptions.md R193). -/
inductive Fault where
  /-- Raised by an emit step at `POS > 1536`, which 10_state.md R25 and R37 say is never reached and need be given
  no meaning. Safe: no state that meets R37 raises it (notes/assumptions/8.md). -/
  | positionOutOfFrame
  deriving DecidableEq, Repr

/-- Why a command has no meaning in the model. -/
inductive Refusal where
  /-- Raised by an arm of `exec` that is not modelled yet; no arm is. Safe: it claims no effect. -/
  | notModelled (mnemonic : String)
  deriving DecidableEq, Repr

/-- The state: the five items of table T-R21, the output stream, and the model's own fields. -/
structure State where
  /-- `FB` (10_state.md R23). -/
  fb : FrameBuffer
  /-- `RES` (10_state.md R22). -/
  res : Color
  /-- `MODE` (10_state.md R26). -/
  mode : Mode
  /-- `POS` (10_state.md R25). -/
  pos : Position
  /-- `CAUSE` (10_state.md R28). -/
  cause : Cause
  /-- The bytes handed to the sink since the last reset, NEWEST FIRST; `State.stream` is the output stream in
  order (42_frame_encoder.md R168; notes/assumptions/6.md). -/
  emitted : List Byte
  /-- MODEL'S OWN. The command words the host has still to present, in order; the first is on the command port
  (10_state.md R24, R30; notes/assumptions/3.md). -/
  hostWords : List CommandWord
  /-- MODEL'S OWN. The pin values of the coming steps, the first those of the next step; after the last, the quiet
  ones (10_state.md R38; notes/assumptions/4.md). -/
  pins : List Pins
  /-- MODEL'S OWN. How many reset steps were taken: the index of the free value `FB_RESET`
  (70_reset_and_hazards.md R221; notes/assumptions/2.md). -/
  resets : Nat
  deriving DecidableEq, Repr

/-- The three outcomes of a step of this machine. -/
abbrev Result := Host.Outcome State Fault Refusal

/-- The frame buffer the `n`-th reset leaves: unspecified, stable until written (10_state.md R38). -/
def fbAfterReset (n : Nat) : FrameBuffer := Vector.ofFn (Config.fbReset n)

/-- The state right after reset (10_state.md R39), with an environment that does nothing
(notes/assumptions/13.md). -/
def State.reset : State where
  fb := fbAfterReset 0
  res := 0x000000#24
  mode := .idle
  pos := 0#11
  cause := .none
  emitted := []
  hostWords := []
  pins := []
  resets := 0

end Sys2Proof.Machine
end

