-- ==== Sys2Proof/Machine/Flags.lean ====
section
/-! DEFINITION. The status view. The block has no arithmetic flag (10_state.md R27): its only flags are the outputs of
table T-R29, pure functions of `MODE` and `CAUSE`. -/

namespace Sys2Proof.Machine

/-- The 2-bit encoding of `MODE` (10_state.md R26). -/
def modeCode : Mode → BitVec 2
  | .idle => 0#2
  | .busy => 1#2
  | .fault => 2#2

/-- The 2-bit code of `CAUSE` (60_exceptions.md R191). -/
def causeCode : Cause → BitVec 2
  | .none => 0#2
  | .illegalOpcode => 1#2
  | .reservedBits => 2#2

/-- The cause a rejected command word raises IllegalCommand with (30_encoding.md R87). -/
def rejectCause : DecodeReject → Cause
  | .illegalOpcode => .illegalOpcode
  | .reservedBits => .reservedBits

/-- `busy`: 1 iff `MODE = BUSY` (10_state.md R29). -/
def busyOut (s : State) : Bool := s.mode == .busy

/-- `fault`: 1 iff `MODE = FAULT` (10_state.md R29). -/
def faultOut (s : State) : Bool := s.mode == .fault

/-- `cause = CAUSE` (10_state.md R29). -/
def causeOut (s : State) : BitVec 2 := causeCode s.cause

/-- `STATUS[3:0]`: `busy` in bit 0, `fault` in bit 1, `cause` in bits 3:2 (10_state.md T-R29). -/
def status (s : State) : BitVec 4 := causeOut s ++ BitVec.ofBool (faultOut s) ++ BitVec.ofBool (busyOut s)

end Sys2Proof.Machine
end

