-- ==== Sys2Proof/Machine/Operands.lean ====
section
/-! DEFINITION. The operand forms (30_encoding.md R83, R84): a colour immediate as three channels, a ratio immediate,
an index immediate; and the packing of a colour word (00_scope.md R9, 20_memory.md R55). -/

namespace Sys2Proof.Machine

/-- `c.r = c[23:16]` (00_scope.md R9). -/
def red (c : Color) : Channel := c.extractLsb' 16 8

/-- `c.g = c[15:8]` (00_scope.md R9). -/
def green (c : Color) : Channel := c.extractLsb' 8 8

/-- `c.b = c[7:0]` (00_scope.md R9). -/
def blue (c : Color) : Channel := c.extractLsb' 0 8

/-- The colour word `{r, g, b}` (00_scope.md R9). -/
def packColor (r g b : Channel) : Color := r ++ g ++ b

/-- The value of a lane function, an integer in 0..255, as a channel (40_color_alu.md R112). -/
def channelOf (n : Nat) : Channel := BitVec.ofNat 8 n

/-- A lane function applied to the three lanes of one colour (40_color_alu.md R111). -/
def mapLanes (f : Nat → Nat) (a : Color) : Color :=
  packColor (channelOf (f (red a).toNat)) (channelOf (f (green a).toNat)) (channelOf (f (blue a).toNat))

/-- A lane function applied to the three lanes of two colours, lane by lane (40_color_alu.md R111). -/
def mapLanes2 (f : Nat → Nat → Nat) (a b : Color) : Color :=
  packColor (channelOf (f (red a).toNat (red b).toNat)) (channelOf (f (green a).toNat (green b).toNat))
    (channelOf (f (blue a).toNat (blue b).toNat))

end Sys2Proof.Machine
end

