-- ==== Sys2Proof/Machine/Ops.lean ====
section
/-! DEFINITION. The named operations over the state: registers, frame buffer, output stream, taking the one exception
of the block, reset (the only return from it), and the environment's inputs. -/

namespace Sys2Proof.Machine

/-- `RES <- c` (10_state.md R22). -/
def writeRes (c : Color) (s : State) : State := { s with res := c }

/-- `FB[i]`: every 6-bit index names a location (20_memory.md R53, R58). -/
def readPixel (s : State) (i : PixelIndex) : Color := s.fb[i.toNat]'i.isLt

/-- `FB[i] <- c`: one whole word (20_memory.md R57). -/
def writePixel (i : PixelIndex) (c : Color) (s : State) : State := { s with fb := s.fb.set i.toNat c i.isLt }

/-- All 64 words in one step (20_memory.md R57). -/
def fillPixels (c : Color) (s : State) : State := { s with fb := Vector.replicate 64 c }

/-- `MODE <- BUSY; POS <- 0` (42_frame_encoder.md R166). -/
def startFrame (s : State) : State := { s with mode := .busy, pos := 0#11 }

/-- `POS <- POS + 1` (42_frame_encoder.md R167). -/
def nextPosition (s : State) : State := { s with pos := s.pos + 1#11 }

/-- `MODE <- IDLE; POS <- 0` (42_frame_encoder.md R167). -/
def endFrame (s : State) : State := { s with mode := .idle, pos := 0#11 }

/-- `Emit(b)`: hand `b` to the sink and append it to the output stream (00_scope.md R11). -/
def emitByte (b : Byte) (s : State) : State := { s with emitted := b :: s.emitted }

/-- The output stream in order, oldest byte first (42_frame_encoder.md R168). -/
def stream (s : State) : List Byte := s.emitted.reverse

/-- TAKING THE EXCEPTION. `raise IllegalCommand(c)`: `MODE <- FAULT; CAUSE <- c` and nothing else; nothing is saved
and no control goes anywhere (60_exceptions.md R193). -/
def raiseIllegal (c : Cause) (s : State) : State := { s with mode := .fault, cause := c }

/-- THE RETURN FROM IT, and the reset step (70_reset_and_hazards.md R221, 60_exceptions.md R197): the registers take
the values of 10_state.md R39, the frame buffer a fresh `FB_RESET`, the output stream of the new run is empty. The
host still presents its word (R221; notes/assumptions/11.md). -/
def resetBlock (s : State) : State :=
  { s with
    fb := fbAfterReset (s.resets + 1), res := 0x000000#24, mode := .idle, pos := 0#11, cause := .none,
    emitted := [], resets := s.resets + 1 }

/-- The pins of an environment that does nothing: no reset, sink not ready (notes/assumptions/4.md). -/
def quietPins : Pins := { rst := false, txReady := false }

/-- The pins during the next step. -/
def pinsNow (s : State) : Pins := s.pins.headD quietPins

/-- The environment moves on to the pins of the step after. -/
def advancePins (s : State) : State := { s with pins := s.pins.tail }

/-- The word on the command port is consumed by its transfer (10_state.md R30). -/
def takeWord (s : State) : State := { s with hostWords := s.hostWords.tail }

/-- The host's next word is `w`, and the block can take it at the very next step: reset is not asserted in that step,
and a block that is not in IDLE is put there (`POS` and `CAUSE` as IDLE has them, 10_state.md R37). It changes nothing
else (notes/assumptions/12.md). -/
def presentWord (w : CommandWord) (s : State) : State :=
  { s with
    hostWords := w :: s.hostWords
    pins := if (pinsNow s).rst then { pinsNow s with rst := false } :: s.pins.tail else s.pins
    mode := .idle
    pos := if s.mode = .idle then s.pos else 0#11
    cause := if s.mode = .idle then s.cause else .none }

end Sys2Proof.Machine
end

