-- ==== Sys2Proof/Machine/ColorAlu.lean ====
section
/-! DEFINITION. The colour arithmetic family: ADD, LERP, FADE (40_color_alu.md). Lane functions are computed exactly
over the integers and brought into 0..255 at the end (R112); each command writes `RES` only. -/

namespace Sys2Proof.Machine

/-- ONE, the ratio operand that means 1.0 (00_scope.md R7). -/
def ratioOne : Nat := 65536

/-- `AddChan(a, b) = min(255, a + b)` (40_color_alu.md R113). -/
def addChan (a b : Nat) : Nat := min 255 (a + b)

/-- The exact intermediate of LERP, `n = a * 65536 + (b - a) * R`, an integer (40_color_alu.md R115). -/
def lerpExact (a b r : Nat) : Int := (a : Int) * ratioOne + ((b : Int) - a) * r

/-- `LerpChan(a, b, R)`: 0 if `n < 0`, else `min(255, n div 65536)` (40_color_alu.md R115); the same above 1.0
(R118; notes/assumptions/10.md). -/
def lerpChan (a b r : Nat) : Nat :=
  if lerpExact a b r < 0 then 0 else min 255 ((lerpExact a b r).toNat / ratioOne)

/-- `FadeChan(a, R) = min(255, (a * R) div 65536)` (40_color_alu.md R120). -/
def fadeChan (a r : Nat) : Nat := min 255 (a * r / ratioOne)

/-- The source's `a.add(b)` (30_encoding.md R93). -/
def addColor (a b : Color) : Color := mapLanes2 addChan a b

/-- The source's `a.lerp(b, ratio)`: the same ratio on the three lanes (40_color_alu.md R111). -/
def lerpColor (a b : Color) (r : Ratio) : Color := mapLanes2 (fun x y => lerpChan x y r.toNat) a b

/-- The source's `a.fade(multiplier)` (30_encoding.md R93). -/
def fadeColor (a : Color) (r : Ratio) : Color := mapLanes (fun x => fadeChan x r.toNat) a

/-- ADD (40_color_alu.md R113). -/
def execAdd (a b : Color) (s : State) : Result := .next (writeRes (addColor a b) s)

/-- LERP (40_color_alu.md R116). -/
def execLerp (a b : Color) (r : Ratio) (s : State) : Result := .next (writeRes (lerpColor a b r) s)

/-- FADE (40_color_alu.md R121). -/
def execFade (a : Color) (r : Ratio) (s : State) : Result := .next (writeRes (fadeColor a r) s)

end Sys2Proof.Machine
end

