-- ==== Sys2Proof/Machine/FrameEncoder.lean ====
section
/-! DEFINITION. The frame encoder: the pure mapping from 64 colours to 1537 bytes (42_frame_encoder.md R160 to R165),
the command ENCODE (R166) and the emit step (R167). -/

namespace Sys2Proof.Machine

/-- ON_BYTE, the byte that stands for a logical one (42_frame_encoder.md R161). -/
def onByte : Byte := 0b11111100#8

/-- OFF_BYTE, the byte that stands for a logical zero (42_frame_encoder.md R161). -/
def offByte : Byte := 0b11000000#8

/-- TRAILER, the byte after the last pixel (42_frame_encoder.md R164). -/
def trailerByte : Byte := 0x00#8

/-- `EncodeBit(x)` (42_frame_encoder.md R161). -/
def encodeBit (x : Bool) : Byte := if x then onByte else offByte

/-- `EncodeChannel(v)`: element `j` is `EncodeBit(v[7 - j])` (42_frame_encoder.md R162). -/
def encodeChannel (v : Channel) : List Byte := (List.range 8).map fun j => encodeBit (v.getLsbD (7 - j))

/-- `EncodePixel(c)`: red, then green, then blue (42_frame_encoder.md R163). -/
def encodePixel (c : Color) : List Byte := encodeChannel (red c) ++ encodeChannel (green c) ++ encodeChannel (blue c)

/-- `EncodeFrame(F)`: the pixels in ascending index, then the trailer (42_frame_encoder.md R164). -/
def encodeFrame (f : FrameBuffer) : List Byte := f.toList.flatMap encodePixel ++ [trailerByte]

/-- `FrameByte(F, p)` in closed form (42_frame_encoder.md R165). Its domain is 0..1536; beyond it, where no rule gives
a value and none is emitted, it reads as the trailer (notes/assumptions/8.md). -/
def frameByte (f : FrameBuffer) (p : Nat) : Byte :=
  if h : p < 1536 then
    encodeBit ((f[p / 24]'(by omega)).getLsbD (23 - p % 24))
  else trailerByte

/-- ENCODE: start the frame; no byte is emitted by this step (42_frame_encoder.md R166). -/
def execEncode (s : State) : Result := .next (startFrame s)

/-- The emit step, taken only in BUSY with the sink ready (42_frame_encoder.md R167). At a position outside the frame,
which no state of 10_state.md R37 has, it stops. -/
def emitStep (s : State) : Result :=
  if s.pos.toNat < 1536 then .next (nextPosition (emitByte (frameByte s.fb s.pos.toNat) s))
  else if s.pos.toNat = 1536 then .next (endFrame (emitByte (frameByte s.fb s.pos.toNat) s))
  else .fault .positionOutOfFrame

end Sys2Proof.Machine
end

