-- ==== Sys2Proof/Machine/PixelAccess.lean ====
section
/-! DEFINITION. The pixel access family: WRPIX, RDPIX, STRES, FILL, and NOP (41_pixel_access.md). The one addressing
mode is index immediate (R140). -/

namespace Sys2Proof.Machine

/-- NOP: the command transfer happens and no state changes (41_pixel_access.md R145). -/
def execNop (s : State) : Result := .next s

/-- WRPIX: `FB[IDX] <- A` (41_pixel_access.md R141). -/
def execWrpix (i : PixelIndex) (c : Color) (s : State) : Result := .next (writePixel i c s)

/-- RDPIX: `RES <- FB[IDX]` (41_pixel_access.md R142). -/
def execRdpix (i : PixelIndex) (s : State) : Result := .next (writeRes (readPixel s i) s)

/-- STRES: `FB[IDX] <- RES` (41_pixel_access.md R143). -/
def execStres (i : PixelIndex) (s : State) : Result := .next (writePixel i s.res s)

/-- FILL: every `FB[i] <- A`, all 64 in the one step (41_pixel_access.md R144). -/
def execFill (c : Color) (s : State) : Result := .next (fillPixels c s)

end Sys2Proof.Machine
end

