-- ==== Sys2Proof/Machine/Dispatch.lean ====
section
/-! DEFINITION. What each command does, one arm per constructor of `Instr` (30_encoding.md R86). -/

namespace Sys2Proof.Machine

def exec (i : Instr) (s : State) : Host.Outcome State Fault Refusal :=
  match i with
  | .nop => Sys2Proof.Machine.execNop s
  | .add a b => Sys2Proof.Machine.execAdd a b s
  | .lerp a b r => Sys2Proof.Machine.execLerp a b r s
  | .fade a r => Sys2Proof.Machine.execFade a r s
  | .wrpix idx c => Sys2Proof.Machine.execWrpix idx c s
  | .rdpix idx => Sys2Proof.Machine.execRdpix idx s
  | .stres idx => Sys2Proof.Machine.execStres idx s
  | .fill c => Sys2Proof.Machine.execFill c s
  | .encode => Sys2Proof.Machine.execEncode s

end Sys2Proof.Machine
end

