-- ==== Sys2Proof/Machine/Ports.lean ====
section
/-! DEFINITION. The ports as the environment sees them (10_state.md R30 to R34): the 38 output bits, functions of the
state and of the pins during the next step, and the two transfers. `clk` carries no meaning (R33). -/

namespace Sys2Proof.Machine

/-- `cmd_valid`: the host has a word on the command port (10_state.md R30). -/
def cmdValid (s : State) : Bool := !s.hostWords.isEmpty

/-- `cmd_data`: the word presented; all zero stands for no word, where the spec gives `cmd_data` no meaning. -/
def cmdData (s : State) : CommandWord := s.hostWords.headD 0#96

/-- `cmd_ready`: 1 iff `MODE = IDLE` (10_state.md R30), forced to 0 while `rst` is asserted
(70_reset_and_hazards.md R221). -/
def cmdReady (s : State) : Bool := s.mode == .idle && !(pinsNow s).rst

/-- `tx_valid`: 1 iff `MODE = BUSY` (10_state.md R31), forced to 0 while `rst` is asserted
(70_reset_and_hazards.md R221). -/
def txValid (s : State) : Bool := s.mode == .busy && !(pinsNow s).rst

/-- `tx_ready`, the sink's input (10_state.md R31). -/
def txReady (s : State) : Bool := (pinsNow s).txReady

/-- `tx_data`: `FrameByte(FB, POS)` while `tx_valid = 1`, else `0x00` (10_state.md R31). -/
def txData (s : State) : Byte := if txValid s then frameByte s.fb s.pos.toNat else 0x00#8

/-- `res[23:0] = RES` (10_state.md R32). -/
def resOut (s : State) : Color := s.res

/-- A command transfer: `cmd_valid` and `cmd_ready` (10_state.md R30). -/
def commandTransfer (s : State) : Bool := cmdValid s && cmdReady s

/-- A byte transfer: `tx_valid` and `tx_ready` (10_state.md R31). -/
def byteTransfer (s : State) : Bool := txValid s && txReady s

end Sys2Proof.Machine
end

