-- ==== Sys2Proof/Machine/Transfer.lean ====
section
/-! DEFINITION. Which of the three kinds of step is taken (00_scope.md R12; 60_exceptions.md table T-R199): reset wins
over every transfer (60_exceptions.md R195), then a command step in IDLE, an emit step in BUSY, nothing in FAULT. -/

namespace Sys2Proof.Machine

/-- A command step on the word transferred: the command it decodes to, or IllegalCommand (30_encoding.md R87). -/
def commandStep (w : CommandWord) (s : State) : Result :=
  match decode w with
  | .ok i => exec i s
  | .error e => .next (raiseIllegal (rejectCause e) s)

/-- In IDLE: take the word presented and perform it; with none presented do nothing (60_exceptions.md R205). -/
def idleStep (s : State) : Result :=
  match s.hostWords with
  | [] => .next s
  | w :: _ => commandStep w (takeWord s)

/-- In BUSY: an emit step if the sink is ready; else the same byte stays offered and nothing changes
(42_frame_encoder.md R167, 70_reset_and_hazards.md R233). -/
def busyStep (ready : Bool) (s : State) : Result := if ready then emitStep s else .next s

/-- One step under the pins `p`. -/
def stepUnder (p : Pins) (s : State) : Result :=
  if p.rst then .next (resetBlock s)
  else
    match s.mode with
    | .idle => idleStep s
    | .busy => busyStep p.txReady s
    | .fault => .next s

/-- One step of the machine under the pins of that step, after which the pins of the step after stand. -/
def transferStep (s : State) : Result := stepUnder (pinsNow s) (advancePins s)

end Sys2Proof.Machine
end

