-- ==== Sys2Proof/Machine/Step.lean ====
section
/-! DEFINITION. One step of the machine, and how the next command is placed where the step takes it from. -/

namespace Sys2Proof.Machine

/-- One step: a reset step, a command step, an emit step, or no transfer (00_scope.md R12). -/
def step (s : State) : Host.Outcome State Fault Refusal := transferStep s

/-- `s` with the word numbered as spec/opcode_table.json numbers it presented by the host, so that the next step
takes it (notes/assumptions/12.md). -/
def State.withFetchWord (s : State) (nbits w : Nat) : State := presentWord (tableWord nbits w) s

end Sys2Proof.Machine
end

