-- ==== Sys2Proof/Machine/Assembler.lean ====
section
/-! DEFINITION. The spec's assembler (30_encoding.md R92 to R94): a command with operand values, its pseudo-instructions,
the range checks, the canonical word, and the text of a line. It is a tool of the host; the machine does not use it. -/

namespace Sys2Proof.Machine

/-- A source command with its operand values as numbers: a colour `#RRGGBB`, an index, a ratio (30_encoding.md R92);
`clear` and `ldc` are the two pseudo-instructions (R94). -/
inductive AsmCommand where
  | nop
  | add (a b : Nat)
  | lerp (a b r : Nat)
  | fade (a r : Nat)
  | wrpix (i c : Nat)
  | rdpix (i : Nat)
  | stres (i : Nat)
  | fill (c : Nat)
  | encode
  | clear
  | ldc (c : Nat)
  deriving DecidableEq, Repr

/-- Why the assembler rejects a line. -/
inductive AsmReject where
  /-- No such mnemonic, or not the operands of its syntax. -/
  | syntaxError
  /-- An operand that is not of the form its place takes. -/
  | badOperand
  /-- An operand out of its range (30_encoding.md R92). -/
  | outOfRange
  deriving DecidableEq, Repr

/-- A colour operand: six hexadecimal digits (30_encoding.md R92). -/
def colorInRange (c : Nat) : Bool := c < 2 ^ 24

/-- An index operand: 0..63 (30_encoding.md R92). -/
def indexInRange (i : Nat) : Bool := i < 64

/-- A ratio operand: 0..131071 (30_encoding.md R92). -/
def ratioInRange (r : Nat) : Bool := r < 131072

/-- Every operand of the command is in its range. -/
def asmInRange : AsmCommand → Bool
  | .nop => true
  | .add a b => colorInRange a && colorInRange b
  | .lerp a b r => colorInRange a && colorInRange b && ratioInRange r
  | .fade a r => colorInRange a && ratioInRange r
  | .wrpix i c => indexInRange i && colorInRange c
  | .rdpix i => indexInRange i
  | .stres i => indexInRange i
  | .fill c => colorInRange c
  | .encode => true
  | .clear => true
  | .ldc c => colorInRange c

/-- The command a source command stands for; CLEAR is `FILL #000000`, LDC `#c` is `ADD #c, #000000`
(30_encoding.md R94). -/
def asmInstr : AsmCommand → Instr
  | .nop => .nop
  | .add a b => .add (BitVec.ofNat 24 a) (BitVec.ofNat 24 b)
  | .lerp a b r => .lerp (BitVec.ofNat 24 a) (BitVec.ofNat 24 b) (BitVec.ofNat 17 r)
  | .fade a r => .fade (BitVec.ofNat 24 a) (BitVec.ofNat 17 r)
  | .wrpix i c => .wrpix (BitVec.ofNat 6 i) (BitVec.ofNat 24 c)
  | .rdpix i => .rdpix (BitVec.ofNat 6 i)
  | .stres i => .stres (BitVec.ofNat 6 i)
  | .fill c => .fill (BitVec.ofNat 24 c)
  | .encode => .encode
  | .clear => .fill 0#24
  | .ldc c => .add (BitVec.ofNat 24 c) 0#24

/-- The assembler: the canonical word, or a rejection of an operand out of its range (30_encoding.md R92). -/
def assemble (c : AsmCommand) : Except AsmReject CommandWord :=
  if asmInRange c then .ok (encodeInstr (asmInstr c)) else .error .outOfRange

/-- White space inside a line (notes/assumptions/14.md). -/
def isBlank (c : Char) : Bool := c == ' ' || c == '\t'

/-- A text without the white space at its ends. -/
def trimBlanks (cs : List Char) : List Char := ((cs.dropWhile isBlank).reverse.dropWhile isBlank).reverse

/-- The parts of a text between commas. -/
def splitCommas : List Char → List (List Char)
  | [] => [[]]
  | c :: cs =>
    if c == ',' then [] :: splitCommas cs
    else
      match splitCommas cs with
      | [] => [[c]]
      | w :: ws => (c :: w) :: ws

/-- A decimal digit. -/
def decimalDigit (c : Char) : Option Nat :=
  if 48 ≤ c.toNat ∧ c.toNat ≤ 57 then some (c.toNat - 48) else none

/-- A hexadecimal digit, capital or small (notes/assumptions/14.md). -/
def hexDigit (c : Char) : Option Nat :=
  if 65 ≤ c.toNat ∧ c.toNat ≤ 70 then some (c.toNat - 55)
  else if 97 ≤ c.toNat ∧ c.toNat ≤ 102 then some (c.toNat - 87)
  else decimalDigit c

/-- The value of a run of digits, the most significant first, after the value `acc` of those before. -/
def digitsValue (base : Nat) (digit : Char → Option Nat) : Nat → List Char → Option Nat
  | acc, [] => some acc
  | acc, c :: cs =>
    match digit c with
    | some d => digitsValue base digit (acc * base + d) cs
    | none => none

/-- A colour `#RRGGBB`, red first (30_encoding.md R92). -/
def parseColor : List Char → Option Nat
  | c :: cs => if c = '#' ∧ cs.length = 6 then digitsValue 16 hexDigit 0 cs else none
  | [] => none

/-- A decimal integer. -/
def parseDecimal (cs : List Char) : Option Nat := if cs = [] then none else digitsValue 10 decimalDigit 0 cs

/-- A ratio: a decimal integer, or `ONE` for 65536, or `HALF` for 32768 (30_encoding.md R92). -/
def parseRatio (cs : List Char) : Option Nat :=
  if cs = ['O', 'N', 'E'] then some 65536
  else if cs = ['H', 'A', 'L', 'F'] then some 32768
  else parseDecimal cs

/-- A command without operands, of the given operand texts. -/
def asm0 (c : AsmCommand) : List (List Char) → Except AsmReject AsmCommand
  | [] => .ok c
  | _ => .error .syntaxError

/-- A command with one operand. -/
def asm1 (p : List Char → Option Nat) (f : Nat → AsmCommand) : List (List Char) → Except AsmReject AsmCommand
  | [x] => match p x with
    | some a => .ok (f a)
    | none => .error .badOperand
  | _ => .error .syntaxError

/-- A command with two operands. -/
def asm2 (p q : List Char → Option Nat) (f : Nat → Nat → AsmCommand) :
    List (List Char) → Except AsmReject AsmCommand
  | [x, y] => match p x, q y with
    | some a, some b => .ok (f a b)
    | _, _ => .error .badOperand
  | _ => .error .syntaxError

/-- A command with three operands. -/
def asm3 (p q u : List Char → Option Nat) (f : Nat → Nat → Nat → AsmCommand) :
    List (List Char) → Except AsmReject AsmCommand
  | [x, y, z] => match p x, q y, u z with
    | some a, some b, some c => .ok (f a b c)
    | _, _, _ => .error .badOperand
  | _ => .error .syntaxError

/-- The syntax of each command, by its mnemonic in capitals, and of the two pseudo-instructions
(30_encoding.md R92, R94). -/
def asmSyntax : List (List Char × (List (List Char) → Except AsmReject AsmCommand)) :=
  [(['N', 'O', 'P'], asm0 .nop),
   (['A', 'D', 'D'], asm2 parseColor parseColor .add),
   (['L', 'E', 'R', 'P'], asm3 parseColor parseColor parseRatio .lerp),
   (['F', 'A', 'D', 'E'], asm2 parseColor parseRatio .fade),
   (['W', 'R', 'P', 'I', 'X'], asm2 parseDecimal parseColor .wrpix),
   (['R', 'D', 'P', 'I', 'X'], asm1 parseDecimal .rdpix),
   (['S', 'T', 'R', 'E', 'S'], asm1 parseDecimal .stres),
   (['F', 'I', 'L', 'L'], asm1 parseColor .fill),
   (['E', 'N', 'C', 'O', 'D', 'E'], asm0 .encode),
   (['C', 'L', 'E', 'A', 'R'], asm0 .clear),
   (['L', 'D', 'C'], asm1 parseColor .ldc)]

/-- The source command on a line: a mnemonic, then its operands separated by commas; `;` starts a comment; none on a
line without a mnemonic (30_encoding.md R92). -/
def parseLine (line : List Char) : Except AsmReject (Option AsmCommand) :=
  let text := trimBlanks (line.takeWhile (· != ';'))
  let mnemonic := text.takeWhile (fun c => !isBlank c)
  let rest := trimBlanks (text.dropWhile (fun c => !isBlank c))
  let operands := if rest = [] then [] else (splitCommas rest).map trimBlanks
  if mnemonic = [] then .ok none
  else
    match asmSyntax.lookup mnemonic with
    | none => .error .syntaxError
    | some f => match f operands with
      | .ok c => .ok (some c)
      | .error e => .error e

/-- The words of a program text, one command a line, or the first rejection (30_encoding.md R92). -/
def assembleLines : List (List Char) → Except AsmReject (List CommandWord)
  | [] => .ok []
  | l :: ls =>
    match parseLine l with
    | .error e => .error e
    | .ok none => assembleLines ls
    | .ok (some c) =>
      match assemble c with
      | .error e => .error e
      | .ok w =>
        match assembleLines ls with
        | .error e => .error e
        | .ok ws => .ok (w :: ws)

end Sys2Proof.Machine
end

