-- ==== Sys2Proof/Safety.lean ====
section
/-! DEFINITION. What the spec says of whole states and runs, in the terms the claims use: the state invariants
(10_state.md R37), the shape of the output stream (42_frame_encoder.md R168), the end of a run
(70_reset_and_hazards.md R241). -/

namespace Sys2Proof.Machine

/-- The invariants of 10_state.md R37. `MODE ∈ {0, 1, 2}` and `CAUSE ≠ 3` hold by the types. -/
abbrev Wf (s : State) : Prop :=
  s.pos.toNat ≤ 1536 ∧ (s.mode ≠ .busy → s.pos = 0#11) ∧ (s.cause ≠ .none ↔ s.mode = .fault)

/-- The output stream is a concatenation of whole frame images followed by the part of the image in flight that was
emitted, which is the first `POS` bytes of the image of the current frame buffer (42_frame_encoder.md R168). -/
def StreamShape (s : State) : Prop :=
  ∃ done : List FrameBuffer, stream s = done.flatMap encodeFrame ++ (encodeFrame s.fb).take s.pos.toNat

/-- A command transfer of the word `w` happens in the next step: the host presents `w`, the block is in IDLE and reset
is not asserted (10_state.md R30, 70_reset_and_hazards.md R221). -/
abbrev Presents (s : State) (w : CommandWord) : Prop :=
  s.hostWords.head? = some w ∧ s.mode = .idle ∧ (pinsNow s).rst = false

/-- The run ends well: every word taken and `MODE = IDLE` (70_reset_and_hazards.md R241). -/
abbrev EndsWell (s : State) : Prop := s.hostWords = [] ∧ s.mode = .idle

/-- The run ends in fault (70_reset_and_hazards.md R241). -/
abbrev EndsInFault (s : State) : Prop := s.mode = .fault

/-- `k` steps, stopping at the first stop: `Host.Core.run` of this machine, over its own types. -/
def runSteps : Nat → State → Result
  | 0, s => .next s
  | k + 1, s =>
    match step s with
    | .next t => runSteps k t
    | .fault r => .fault r
    | .refused r => .refused r

/-- The run hangs: it stays in BUSY for ever (70_reset_and_hazards.md R241). -/
def Hangs (s : State) : Prop := ∀ k, ∃ t, runSteps k s = .next t ∧ t.mode = .busy

/-- The step stops: a fault or a refusal of the model, which the spec gives no step of the block. -/
def Stops (s : State) : Prop := ∀ t, step s ≠ .next t

end Sys2Proof.Machine
end

