-- ==== Sys2Proof/Certificates/Slice0/Obligations.lean ====
section
/-! DEFINITION. The statements for the provers. Each docstring names the rules of spec/ it follows. -/

open Sys2Proof Sys2Proof.Machine

/-! ### Decoding and encoding -/

/-- 30_encoding.md R87 with 10_state.md R30: a transferred word that decodes to `i` is performed as `exec i`, on the
state in which the word is consumed and the pins have moved on. -/
def Obligations.StepRunsDecodedCommand : Prop :=
  ∀ (s : State) (w : CommandWord) (i : Instr), Presents s w → decode w = .ok i →
    step s = exec i (takeWord (advancePins s))

/-- 30_encoding.md R87: the decode order on the word of a command transfer, the fields written as the bit positions of
R81. A word with a reserved opcode raises ILLEGAL_OPCODE whatever its reserved bits. -/
def Obligations.DecodeOrderOfTransferredWord : Prop :=
  ∀ (s : State) (w : CommandWord), Presents s w →
    let op := (w.extractLsb' 88 8).toNat
    let a := w.extractLsb' 64 24
    let idx := w.extractLsb' 56 6
    let b := w.extractLsb' 32 24
    let r := w.extractLsb' 0 17
    let u := takeWord (advancePins s)
    if 8 < op then step s = .next { u with mode := .fault, cause := .illegalOpcode }
    else if w.extractLsb' 62 2 ≠ 0#2 ∨ w.extractLsb' 17 15 ≠ 0#15 then
      step s = .next { u with mode := .fault, cause := .reservedBits }
    else
      (op = 0 → step s = exec .nop u) ∧ (op = 1 → step s = exec (.add a b) u) ∧
      (op = 2 → step s = exec (.lerp a b r) u) ∧ (op = 3 → step s = exec (.fade a r) u) ∧
      (op = 4 → step s = exec (.wrpix idx a) u) ∧ (op = 5 → step s = exec (.rdpix idx) u) ∧
      (op = 6 → step s = exec (.stres idx) u) ∧ (op = 7 → step s = exec (.fill a) u) ∧
      (op = 8 → step s = exec .encode u)

/-- 30_encoding.md R90: worked words, written out from the spec. -/
def Obligations.WorkedWordsDecode : Prop :=
  decode 0x01FA0000000A000000000000#96 = .ok (.add 0xFA0000#24 0x0A0000#24) ∧
  decode 0x02FFFFFF0000000000008000#96 = .ok (.lerp 0xFFFFFF#24 0x000000#24 32768#17) ∧
  decode 0x03C864320000000000004000#96 = .ok (.fade 0xC86432#24 16384#17) ∧
  decode 0x040000FF3F00000000000000#96 = .ok (.wrpix 63#6 0x0000FF#24) ∧
  decode 0x050000000100000000000000#96 = .ok (.rdpix 1#6) ∧
  decode 0x060000000200000000000000#96 = .ok (.stres 2#6) ∧
  decode 0x071010100000000000000000#96 = .ok (.fill 0x101010#24) ∧
  decode 0x080000000000000000000000#96 = .ok .encode ∧
  decode 0x000000000000000000000000#96 = .ok .nop ∧
  decode 0x090000000000000000000000#96 = .error .illegalOpcode ∧
  decode 0x010000004000000000000000#96 = .error .reservedBits ∧
  decode 0x080000000000000000020000#96 = .error .reservedBits

/-- 30_encoding.md R81, R84, R86: the canonical word of every command, with every operand at every value its field
carries, decodes to that command. -/
def Obligations.DecodeOfEncodeIsIdentity : Prop :=
  ∀ i : Instr, decode (encodeInstr i) = .ok i

/-- 30_encoding.md R88 (c): the canonical word of the command a word decodes to is that word with its unused operand
fields zeroed, and it is canonical. -/
def Obligations.EncodeOfDecodeZeroesUnusedFields : Prop :=
  ∀ (w : CommandWord) (i : Instr), decode w = .ok i →
    encodeInstr i = w &&& CommandWord.usedMask (w >>> 88).toNat ∧ CommandWord.canonical (encodeInstr i) = true

/-- 30_encoding.md R88 (c): words that agree on the opcode, the reserved bits and the fields their opcode uses decode
alike. -/
def Obligations.UnusedFieldsAreIgnored : Prop :=
  ∀ w w' : CommandWord,
    w &&& (CommandWord.usedMask (w >>> 88).toNat ||| 0xFF000000C0000000FFFE0000#96) =
      w' &&& (CommandWord.usedMask (w >>> 88).toNat ||| 0xFF000000C0000000FFFE0000#96) →
    decode w = decode w'

/-- 30_encoding.md R87, R88: the decoder accepts exactly the words with a defined opcode and clear reserved bits. -/
def Obligations.DecodeAcceptsExactlyWellFormedWords : Prop :=
  ∀ w : CommandWord, (∃ i, decode w = .ok i) ↔ CommandWord.wellFormed w = true

/-- 30_encoding.md R89: mask and match. -/
def Obligations.MaskAndMatchSelectCommand : Prop :=
  ∀ (w : CommandWord) (op : Nat), op ≤ 8 →
    (w &&& 0xFF000000C0000000FFFE0000#96 = BitVec.ofNat 96 op <<< 88 ↔
      ∃ i : Instr, decode w = .ok i ∧ i.opcode.toNat = op)

/-- 30_encoding.md R92, R94: the assembler accepts a source command exactly when each of its colours is six hexadecimal
digits (below `2^24`), its index at most 63 and its ratio at most 131071. It then emits a canonical word that decodes to
the command of that name with those numbers as its operands, a pseudo-instruction standing for its expansion; and it
rejects every other as out of range. -/
def Obligations.AssemblerEmitsCanonicalOrRejects : Prop :=
  (∀ c : AsmCommand,
    let inBounds : Prop := match c with
      | .nop => True
      | .add a b => a < 16777216 ∧ b < 16777216
      | .lerp a b r => a < 16777216 ∧ b < 16777216 ∧ r < 131072
      | .fade a r => a < 16777216 ∧ r < 131072
      | .wrpix i x => i < 64 ∧ x < 16777216
      | .rdpix i => i < 64
      | .stres i => i < 64
      | .fill x => x < 16777216
      | .encode => True
      | .clear => True
      | .ldc x => x < 16777216
    let standsFor : Instr → Prop := fun i => match c, i with
      | .nop, .nop => True
      | .add a b, .add a' b' => a'.toNat = a ∧ b'.toNat = b
      | .lerp a b r, .lerp a' b' r' => a'.toNat = a ∧ b'.toNat = b ∧ r'.toNat = r
      | .fade a r, .fade a' r' => a'.toNat = a ∧ r'.toNat = r
      | .wrpix j x, .wrpix j' x' => j'.toNat = j ∧ x'.toNat = x
      | .rdpix j, .rdpix j' => j'.toNat = j
      | .stres j, .stres j' => j'.toNat = j
      | .fill x, .fill x' => x'.toNat = x
      | .encode, .encode => True
      | .clear, .fill x' => x'.toNat = 0
      | .ldc x, .add a' b' => a'.toNat = x ∧ b'.toNat = 0
      | _, _ => False
    ((∃ w, assemble c = .ok w) ↔ inBounds) ∧
    (inBounds → ∃ w i, assemble c = .ok w ∧ CommandWord.canonical w = true ∧ decode w = .ok i ∧ standsFor i) ∧
    (¬inBounds → assemble c = .error .outOfRange)) ∧
  assemble .clear = assemble (.fill 0) ∧ ∀ x, assemble (.ldc x) = assemble (.add x 0)

/-! ### Colour arithmetic -/

/-- 40_color_alu.md R113: ADD completes; each channel of `RES` is the saturated sum; nothing else changes. -/
def Obligations.AddWritesSaturatedChannelSums : Prop :=
  ∀ (a b : Color) (s : State), s.mode = .idle →
    ∃ t, exec (.add a b) s = .next t ∧
      (∀ ch ∈ [red, green, blue], (ch t.res).toNat = min 255 ((ch a).toNat + (ch b).toNat)) ∧
      t = { s with res := t.res }

/-- 40_color_alu.md R115, R116: LERP completes at every ratio; each channel of `RES` is the exact value truncated toward
zero and clamped; nothing else changes. -/
def Obligations.LerpWritesTruncatedInterpolation : Prop :=
  ∀ (a b : Color) (r : Ratio) (s : State), s.mode = .idle →
    ∃ t, exec (.lerp a b r) s = .next t ∧
      (∀ ch ∈ [red, green, blue],
        let n : Int := (ch a).toNat * 65536 + ((ch b).toNat - (ch a).toNat : Int) * r.toNat
        ((ch t.res).toNat : Int) = if n < 0 then 0 else min 255 (n / 65536)) ∧
      t = { s with res := t.res }

/-- 40_color_alu.md R120, R121: FADE completes at every multiplier; each channel of `RES` is the exact product truncated
and clamped; nothing else changes. -/
def Obligations.FadeWritesTruncatedProduct : Prop :=
  ∀ (a : Color) (r : Ratio) (s : State), s.mode = .idle →
    ∃ t, exec (.fade a r) s = .next t ∧
      (∀ ch ∈ [red, green, blue], (ch t.res).toNat = min 255 ((ch a).toNat * r.toNat / 65536)) ∧
      t = { s with res := t.res }

/-- 40_color_alu.md R114: the laws of `AddChan` on channel values. -/
def Obligations.AddChannelLaws : Prop :=
  ∀ a b c : Nat, a ≤ 255 → b ≤ 255 → c ≤ 255 →
    addChan a b = addChan b a ∧
    addChan (addChan a b) c = addChan a (addChan b c) ∧ addChan (addChan a b) c = min 255 (a + b + c) ∧
    addChan a 0 = a ∧ addChan a 255 = 255 ∧
    (b ≤ c → addChan a b ≤ addChan a c ∧ addChan b a ≤ addChan c a) ∧
    max a b ≤ addChan a b ∧ (addChan a b = a + b ↔ a + b ≤ 255)

/-- 40_color_alu.md R114 carried to colours: ADD is commutative and associative, `#000000` is its identity and `#FFFFFF`
absorbs. -/
def Obligations.AddColorLaws : Prop :=
  ∀ a b c : Color,
    addColor a b = addColor b a ∧ addColor (addColor a b) c = addColor a (addColor b c) ∧
    addColor a 0x000000#24 = a ∧ addColor a 0xFFFFFF#24 = 0xFFFFFF#24

/-- 40_color_alu.md R117 (a) to (g): `LerpChan` inside the source's domain. -/
def Obligations.LerpChannelInsideDomain : Prop :=
  ∀ a b r : Nat, a ≤ 255 → b ≤ 255 → r ≤ 65536 →
    lerpChan a b 0 = a ∧ lerpChan a b 65536 = b ∧
    (0 ≤ lerpExact a b r ∧ lerpExact a b r ≤ 255 * 65536 ∧ (lerpChan a b r : Int) = lerpExact a b r / 65536) ∧
    (min a b ≤ lerpChan a b r ∧ lerpChan a b r ≤ max a b) ∧
    (∀ r', r ≤ r' → r' ≤ 65536 →
      (a ≤ b → lerpChan a b r ≤ lerpChan a b r') ∧ (b ≤ a → lerpChan a b r' ≤ lerpChan a b r)) ∧
    lerpChan a b r = lerpChan b a (65536 - r) ∧
    lerpChan 255 0 32768 = 127 ∧
    (lerpChan a b r * 65536 ≤ lerpExact a b r ∧ lerpExact a b r < (lerpChan a b r + 1) * 65536)

/-- 40_color_alu.md R118: above ratio 1.0 the formula of R115 applies unchanged: the line goes on and the result is
clamped. -/
def Obligations.LerpChannelBeyondOne : Prop :=
  (∀ a b r : Nat, a ≤ 255 → b ≤ 255 → 65536 < r → r ≤ 131071 →
    (lerpChan a b r : Int) = max 0 (min 255 (((a : Int) * 65536 + ((b : Int) - a) * r) / 65536)) ∧
    (a < b → b ≤ lerpChan a b r ∧ lerpChan a b r ≤ 255 ∧ (255 * 65536 ≤ lerpExact a b r → lerpChan a b r = 255)) ∧
    (b < a → lerpChan a b r ≤ b ∧ (lerpExact a b r < 0 → lerpChan a b r = 0)) ∧
    (a = b → lerpChan a b r = a)) ∧
  lerpChan 100 200 98304 = 250 ∧ lerpChan 0 255 131071 = 255 ∧
  lerpChan 200 100 98304 = 50 ∧ lerpChan 255 0 131071 = 0

/-- 40_color_alu.md R116, corner cases: the smallest nonzero ratio and the largest below 1.0. -/
def Obligations.LerpChannelCornerRatios : Prop :=
  ∀ a b : Nat, a ≤ 255 → b ≤ 255 →
    (b < a → lerpChan a b 1 + 1 = a ∧ lerpChan a b 65535 = b) ∧
    (a < b → lerpChan a b 1 = a ∧ lerpChan a b 65535 + 1 = b) ∧
    (a = b → ∀ r, r ≤ 131071 → lerpChan a b r = a)

/-- 40_color_alu.md R122: FADE is LERP from black, on channels and as commands. -/
def Obligations.FadeIsLerpFromBlack : Prop :=
  (∀ a r : Nat, a ≤ 255 → r ≤ 131071 → fadeChan a r = lerpChan 0 a r) ∧
  ∀ (c : Color) (r : Ratio) (s : State), exec (.fade c r) s = exec (.lerp 0x000000#24 c r) s

/-- 40_color_alu.md R123 (a) to (e): the properties of `FadeChan`. -/
def Obligations.FadeChannelProperties : Prop :=
  ∀ a r : Nat, a ≤ 255 → r ≤ 131071 →
    fadeChan a 0 = 0 ∧ fadeChan a 65536 = a ∧
    (r ≤ 65536 → fadeChan a r = a * r / 65536 ∧ fadeChan a r ≤ a) ∧
    (∀ a' r', a ≤ a' → a' ≤ 255 → r ≤ r' → r' ≤ 131071 → fadeChan a r ≤ fadeChan a' r ∧ fadeChan a r ≤ fadeChan a r') ∧
    fadeChan 255 32768 = 127 ∧ fadeChan 0 r = 0

/-- 40_color_alu.md R111: three independent lanes under one shared ratio. A lane of the result depends on that lane of
the operands only, whatever two states in IDLE the commands are performed in. -/
def Obligations.ArithmeticLanesAreIndependent : Prop :=
  ∀ (a a' b b' : Color) (r : Ratio) (s s' : State), s.mode = .idle → s'.mode = .idle →
    ∀ ch ∈ [red, green, blue], ch a = ch a' → ch b = ch b' →
    (∃ t t', exec (.add a b) s = .next t ∧ exec (.add a' b') s' = .next t' ∧ ch t.res = ch t'.res) ∧
    (∃ t t', exec (.lerp a b r) s = .next t ∧ exec (.lerp a' b' r) s' = .next t' ∧ ch t.res = ch t'.res) ∧
    (∃ t t', exec (.fade a r) s = .next t ∧ exec (.fade a' r) s' = .next t' ∧ ch t.res = ch t'.res)

/-- 40_color_alu.md R110: what an arithmetic command writes to `RES` depends on the fields `A`, `B`, `R` of its word and
on nothing else, neither on the frame buffer nor on the old `RES` nor on anything before. -/
def Obligations.ArithmeticDependsOnFieldsOnly : Prop :=
  ∀ (s s' t t' : State) (w w' : CommandWord), Presents s w → Presents s' w' →
    CommandWord.wellFormed w = true → CommandWord.wellFormed w' = true →
    w.extractLsb' 88 8 ∈ [1#8, 2#8, 3#8] → w.extractLsb' 88 8 = w'.extractLsb' 88 8 →
    w.extractLsb' 64 24 = w'.extractLsb' 64 24 → w.extractLsb' 32 24 = w'.extractLsb' 32 24 →
    w.extractLsb' 0 17 = w'.extractLsb' 0 17 →
    step s = .next t → step s' = .next t' → t.res = t'.res

/-! ### Pixel access -/

/-- 41_pixel_access.md R145: NOP completes and changes nothing. -/
def Obligations.NopChangesNothing : Prop :=
  ∀ s : State, s.mode = .idle → exec .nop s = .next s

/-- 41_pixel_access.md R141: WRPIX completes; it writes the pixel it names, and nothing else changes. -/
def Obligations.WrpixWritesOnePixel : Prop :=
  ∀ (i : PixelIndex) (c : Color) (s : State), s.mode = .idle →
    ∃ t, exec (.wrpix i c) s = .next t ∧
      (∀ j, readPixel t j = if j = i then c else readPixel s j) ∧ t = { s with fb := t.fb }

/-- 41_pixel_access.md R142, 20_memory.md R59: RDPIX completes; `RES` takes the pixel, nothing else changes, and
reading again changes nothing more. -/
def Obligations.RdpixReadsPixelWithoutSideEffect : Prop :=
  ∀ (i : PixelIndex) (s : State), s.mode = .idle →
    ∃ t, exec (.rdpix i) s = .next t ∧ t.res = readPixel s i ∧ t = { s with res := t.res } ∧
      exec (.rdpix i) t = .next t

/-- 41_pixel_access.md R143: STRES completes; it stores `RES` to the pixel it names, `RES` keeps its value, nothing else
changes, and RDPIX of that pixel then leaves `RES` as it was. -/
def Obligations.StresStoresResult : Prop :=
  ∀ (i : PixelIndex) (s : State), s.mode = .idle →
    ∃ t, exec (.stres i) s = .next t ∧
      (∀ j, readPixel t j = if j = i then s.res else readPixel s j) ∧ t = { s with fb := t.fb } ∧
      exec (.rdpix i) t = .next t

/-- 41_pixel_access.md R144, 70_reset_and_hazards.md R224: FILL completes; every pixel takes the colour, nothing else
changes, and the frame no longer depends on what the buffer held. -/
def Obligations.FillWritesEveryPixel : Prop :=
  ∀ (c : Color) (s s' : State), s.mode = .idle → s'.mode = .idle →
    ∃ t t', exec (.fill c) s = .next t ∧ exec (.fill c) s' = .next t' ∧
      (∀ j, readPixel t j = c) ∧ t = { s with fb := t.fb } ∧ t.fb = t'.fb

/-- 10_state.md R22: without reset, only ADD, LERP, FADE and RDPIX change `RES`. -/
def Obligations.ResultWrittenByFourCommands : Prop :=
  ∀ s t : State, step s = .next t → (pinsNow s).rst = false → t.res ≠ s.res →
    ∃ w i, Presents s w ∧ decode w = .ok i ∧ i.opcode ∈ [1#8, 2#8, 3#8, 5#8]

/-- 10_state.md R21 (table T-R21), 20_memory.md R59: without reset, only WRPIX, STRES and FILL change the frame
buffer. -/
def Obligations.FrameBufferWrittenByThreeCommands : Prop :=
  ∀ s t : State, step s = .next t → (pinsNow s).rst = false → t.fb ≠ s.fb →
    ∃ w i, Presents s w ∧ decode w = .ok i ∧ i.opcode ∈ [4#8, 6#8, 7#8]

/-- 10_state.md R25: `POS` changes only by one step of emission, by ENCODE to 0, by the last emit step to 0 and by reset
to 0. -/
def Obligations.PositionChangesOnlyByEmission : Prop :=
  ∀ s t : State, Wf s → step s = .next t → t.pos ≠ s.pos →
    ((pinsNow s).rst = true ∧ t.pos = 0#11) ∨
    (byteTransfer s = true ∧ s.pos.toNat < 1536 ∧ t.pos.toNat = s.pos.toNat + 1) ∨
    (byteTransfer s = true ∧ s.pos.toNat = 1536 ∧ t.pos = 0#11)

/-! ### The frame image -/

/-- 42_frame_encoder.md R161, R162: one byte per bit; a channel is its eight bits, most significant first. -/
def Obligations.ChannelEncodedMostSignificantFirst : Prop :=
  encodeBit true = 0xFC#8 ∧ encodeBit false = 0xC0#8 ∧
  ∀ v : Channel, (encodeChannel v).length = 8 ∧
    ∀ j, j < 8 → (encodeChannel v)[j]? = some (if v.getLsbD (7 - j) then 0xFC#8 else 0xC0#8)

/-- 42_frame_encoder.md R163: a pixel is red, green, blue; element `q` stands for bit `23 - q` of the colour word. -/
def Obligations.PixelEncodedRedGreenBlue : Prop :=
  ∀ c : Color, encodePixel c = encodeChannel (red c) ++ encodeChannel (green c) ++ encodeChannel (blue c) ∧
    (encodePixel c).length = 24 ∧
    ∀ q, q < 24 → (encodePixel c)[q]? = some (if c.getLsbD (23 - q) then 0xFC#8 else 0xC0#8)

/-- 42_frame_encoder.md R165: the closed form of a byte of the frame image. -/
def Obligations.FrameByteIsElementOfImage : Prop :=
  ∀ (f : FrameBuffer) (p : Nat), p ≤ 1536 →
    (encodeFrame f)[p]? = some (frameByte f p) ∧
    (p = 1536 → frameByte f p = 0x00#8) ∧
    ∀ h : p / 24 < 64, p < 1536 → frameByte f p = if (f[p / 24]'h).getLsbD (23 - p % 24) then 0xFC#8 else 0xC0#8

/-- 20_memory.md R52: where in the image the byte for bit `k` of channel `ch` of pixel `i` stands. -/
def Obligations.PositionMapOfFrameImage : Prop :=
  ∀ (f : FrameBuffer) (i : Fin 64) (ch : Fin 3) (k : Nat), k ≤ 7 →
    (encodeFrame f)[24 * i.val + 8 * ch.val + (7 - k)]? =
      some (if (match ch with | 0 => red f[i] | 1 => green f[i] | 2 => blue f[i]).getLsbD k then 0xFC#8 else 0xC0#8) ∧
    (encodeFrame f)[1536]? = some 0x00#8

/-- 42_frame_encoder.md R169 (a), (b): length 1537; only the last byte is the trailer, every other is one of two. -/
def Obligations.FrameImageLengthAndBytes : Prop :=
  ∀ f : FrameBuffer, (encodeFrame f).length = 1537 ∧ (encodeFrame f)[1536]? = some 0x00#8 ∧
    ∀ p, p < 1536 → (encodeFrame f)[p]? = some 0xFC#8 ∨ (encodeFrame f)[p]? = some 0xC0#8

/-- 42_frame_encoder.md R169 (c): the image has as many `0xFC` bytes as the 64 colour words have 1 bits. -/
def Obligations.FrameImageCountsOneBits : Prop :=
  ∀ f : FrameBuffer,
    (encodeFrame f).count 0xFC#8 = (f.toList.map fun c => (List.range 24).countP fun k => c.getLsbD k).sum

/-- 42_frame_encoder.md R169 (d): the 64 colours can be read back from the image. -/
def Obligations.FrameImageIsInjective : Prop :=
  (∀ f g : FrameBuffer, encodeFrame f = encodeFrame g → f = g) ∧
  ∀ (f : FrameBuffer) (i : Fin 64) (q : Nat), q < 24 →
    (f[i].getLsbD (23 - q) = true ↔ (encodeFrame f)[24 * i.val + q]? = some 0xFC#8)

/-- 42_frame_encoder.md R169 (e): changing one bit of one pixel changes exactly one byte of the image. -/
def Obligations.OneBitChangesOneByte : Prop :=
  ∀ (f : FrameBuffer) (i : Fin 64) (k : Nat), k < 24 → ∀ p : Nat,
    (encodeFrame (f.set i.val (f[i] ^^^ (1#24 <<< k)) i.isLt))[p]? ≠ (encodeFrame f)[p]? ↔ p = 24 * i.val + (23 - k)

/-! ### Emission -/

/-- 42_frame_encoder.md R166: ENCODE completes: `MODE <- BUSY`, `POS <- 0`, nothing else changes, no byte is emitted,
and the first byte of the image of the buffer is then on offer (while reset is not asserted). -/
def Obligations.EncodeStartsFrame : Prop :=
  ∀ s : State, s.mode = .idle →
    ∃ t, exec .encode s = .next t ∧ t = { s with mode := .busy, pos := 0#11 } ∧
      ((pinsNow t).rst = false →
        busyOut t = true ∧ cmdReady t = false ∧ txValid t = true ∧ some (txData t) = (encodeFrame s.fb).head?)

/-- 42_frame_encoder.md R167: the emit step, and the wait while the sink is not ready. -/
def Obligations.EmitStepSendsOneByte : Prop :=
  ∀ s : State, s.mode = .busy → s.pos.toNat ≤ 1536 → (pinsNow s).rst = false →
    ((pinsNow s).txReady = true →
      ∃ t, step s = .next t ∧ stream t = stream s ++ [frameByte s.fb s.pos.toNat] ∧
        (s.pos.toNat = 1536 → t.mode = .idle ∧ t.pos = 0#11) ∧
        (s.pos.toNat < 1536 → t.mode = .busy ∧ t.pos.toNat = s.pos.toNat + 1) ∧
        t = { s with mode := t.mode, pos := t.pos, emitted := t.emitted, pins := s.pins.tail }) ∧
    ((pinsNow s).txReady = false → step s = .next { s with pins := s.pins.tail })

/-- 42_frame_encoder.md R168, the frame theorem, under any pattern of readiness of the sink: if an ENCODE step is taken
with frame buffer `F`, then once 1537 of the following steps found the sink ready (1536 of those in `ps`, and the one
after), with no reset among them, the output stream has grown by exactly the image of `F`, and the rest is as said. -/
def Obligations.EncodedFrameIsEmittedWhole : Prop :=
  ∀ (s : State) (w : CommandWord) (p : Pins) (ps rest : List Pins),
    Presents s w → decode w = .ok .encode →
    s.pins = p :: ps ++ { rst := false, txReady := true } :: rest →
    (∀ q ∈ ps, q.rst = false) → ps.countP (fun q => q.txReady) = 1536 →
    ∃ t, runSteps (ps.length + 2) s = .next t ∧
      stream t = stream s ++ encodeFrame s.fb ∧ t.mode = .idle ∧ t.pos = 0#11 ∧ t.fb = s.fb ∧ t.res = s.res ∧
      t.cause = s.cause ∧ t.hostWords = s.hostWords.tail ∧ t.pins = rest ∧ t.resets = s.resets

/-- 42_frame_encoder.md R168: every step keeps the output stream a concatenation of whole frame images followed by the
first `POS` bytes of the image in flight. -/
def Obligations.StepKeepsStreamOfWholeFrames : Prop :=
  ∀ s t : State, Wf s → StreamShape s → step s = .next t → StreamShape t

/-- 42_frame_encoder.md R168, R169: in a state whose output stream is the images of the frames `done` completed since
reset followed by the first `POS` bytes of the image in flight, the stream's length is `1537 · k + POS` with `k` the number
of those frames, and `k` is the number of trailer bytes in the stream. -/
def Obligations.StreamLengthCountsFrames : Prop :=
  ∀ (s : State) (done : List FrameBuffer), s.pos.toNat ≤ 1536 →
    stream s = done.flatMap encodeFrame ++ (encodeFrame s.fb).take s.pos.toNat →
    (stream s).length = 1537 * done.length + s.pos.toNat ∧ (stream s).count 0x00#8 = done.length

/-! ### Modes, faults, waits -/

/-- 60_exceptions.md R193: fault entry. A word that decodes to no command is consumed, `MODE <- FAULT`, `CAUSE <- c`,
and nothing else changes; no command is taken and no byte offered from then on. -/
def Obligations.IllegalWordEntersFault : Prop :=
  ∀ (s : State) (w : CommandWord) (e : DecodeReject), Presents s w → decode w = .error e →
    ∃ t, step s = .next t ∧
      t = { s with mode := .fault, cause := t.cause, hostWords := s.hostWords.tail, pins := s.pins.tail } ∧
      (e = .illegalOpcode → causeOut t = 1#2) ∧ (e = .reservedBits → causeOut t = 2#2) ∧
      faultOut t = true ∧ cmdReady t = false ∧ txValid t = false ∧ resOut t = s.res

/-- 60_exceptions.md R197: without reset, FAULT lasts for any number of steps: no word is taken, no byte emitted, and
`CAUSE` keeps the first cause. That reset stays away after the schedule's end is the model's choice
(notes/assumptions/4.md). -/
def Obligations.FaultLastsUntilReset : Prop :=
  ∀ (s : State) (k : Nat), EndsInFault s → (∀ p ∈ s.pins, p.rst = false) →
    ∃ t, runSteps k s = .next t ∧ EndsInFault t ∧ t = { s with pins := s.pins.drop k }

/-- 10_state.md R26: the transitions of `MODE`, and no other; what each mode takes and offers; the encodings. -/
def Obligations.ModeTransitionsAreTheSpecs : Prop :=
  (modeCode .idle = 0#2 ∧ modeCode .busy = 1#2 ∧ modeCode .fault = 2#2 ∧ ∀ m, modeCode m ≠ 3#2) ∧
  ∀ s t : State, step s = .next t →
    ((pinsNow s).rst = true → t.mode = .idle) ∧
    ((pinsNow s).rst = false →
      (cmdReady s = true ↔ s.mode = .idle) ∧ (txValid s = true ↔ s.mode = .busy) ∧
      (t.mode ≠ s.mode ↔
        (∃ w, Presents s w ∧ decode w = .ok .encode) ∨
        (∃ w e, Presents s w ∧ decode w = .error e) ∨
        (s.mode = .busy ∧ s.pos.toNat = 1536 ∧ (pinsNow s).txReady = true)) ∧
      ((∃ w, Presents s w ∧ decode w = .ok .encode) → t.mode = .busy) ∧
      ((∃ w e, Presents s w ∧ decode w = .error e) → t.mode = .fault) ∧
      (s.mode = .busy → t.mode = .busy ∨ t.mode = .idle))

/-- 41_pixel_access.md R146, 70_reset_and_hazards.md R230: in BUSY no command is taken, however the sink behaves; the
presented word waits and nothing of the command state changes. -/
def Obligations.BusyTakesNoCommand : Prop :=
  ∀ s t : State, s.mode = .busy → (pinsNow s).rst = false → step s = .next t →
    commandTransfer s = false ∧ t.hostWords = s.hostWords ∧ t.fb = s.fb ∧ t.res = s.res ∧ t.cause = s.cause

/-- 70_reset_and_hazards.md R233: a sink that is never ready leaves the block in BUSY for ever, the same byte offered,
no word taken, no fault. That the pins stay quiet after the schedule's end is the model's choice
(notes/assumptions/4.md). -/
def Obligations.StalledSinkHangs : Prop :=
  ∀ s : State, s.mode = .busy → (∀ p ∈ s.pins, p.rst = false ∧ p.txReady = false) →
    Hangs s ∧ ∀ k, ∃ t, runSteps k s = .next t ∧ t = { s with pins := s.pins.drop k } ∧
      txValid t = true ∧ txData t = txData s ∧ faultOut t = false

/-- 70_reset_and_hazards.md R241, 60_exceptions.md R205: a run that has ended well stays so: with no word presented and no
reset the block does nothing, whatever the sink does. -/
def Obligations.EndedRunStaysEnded : Prop :=
  ∀ (s : State) (k : Nat), EndsWell s → (∀ p ∈ s.pins, p.rst = false) →
    ∃ t, runSteps k s = .next t ∧ EndsWell t ∧ t = { s with pins := s.pins.drop k }

/-- 10_state.md R30, R31, 60_exceptions.md R195: a word is consumed exactly at a command transfer and a byte emitted
exactly at a byte transfer, the two never together, and neither while reset is asserted. -/
def Obligations.TransfersTriggerSteps : Prop :=
  ∀ s t : State, step s = .next t →
    ((pinsNow s).rst = false →
      (commandTransfer s = true ↔ t.hostWords ≠ s.hostWords) ∧ (byteTransfer s = true ↔ stream t ≠ stream s) ∧
      (byteTransfer s = true → stream t = stream s ++ [txData s])) ∧
    ¬(commandTransfer s = true ∧ byteTransfer s = true) ∧
    ((pinsNow s).rst = true → commandTransfer s = false ∧ byteTransfer s = false)

/-- 20_memory.md R62: the words are taken one at a time in the order presented. -/
def Obligations.WordsTakenInOrder : Prop :=
  ∀ s t : State, step s = .next t →
    t.pins = s.pins.tail ∧ (t.hostWords = s.hostWords ∨ ∃ w, Presents s w ∧ s.hostWords = w :: t.hostWords)

/-- 10_state.md R29 to R32: the status view and the outputs while reset is not asserted. -/
def Obligations.OutputsShowState : Prop :=
  ∀ s : State, (pinsNow s).rst = false →
    ((status s).getLsbD 0 = true ↔ s.mode = .busy) ∧ ((status s).getLsbD 1 = true ↔ s.mode = .fault) ∧
    (status s).extractLsb' 2 2 = causeCode s.cause ∧ resOut s = s.res ∧
    (cmdReady s = true ↔ s.mode = .idle) ∧ (txValid s = true ↔ s.mode = .busy) ∧
    (s.mode = .busy → s.pos.toNat ≤ 1536 → (encodeFrame s.fb)[s.pos.toNat]? = some (txData s)) ∧
    (s.mode ≠ .busy → txData s = 0x00#8)

/-! ### Reset and the invariants -/

/-- 70_reset_and_hazards.md R221, 10_state.md R39: the reset step from any state. The frame buffer holds the free value
of the new reset (notes/assumptions/1.md and 2.md) and the host goes on presenting its words (notes/assumptions/11.md):
these two are the model's. -/
def Obligations.ResetStepFromAnyState : Prop :=
  ∀ s : State, (pinsNow s).rst = true →
    cmdReady s = false ∧ txValid s = false ∧ txData s = 0x00#8 ∧
    ∃ t, step s = .next t ∧ t.mode = .idle ∧ t.pos = 0#11 ∧ t.cause = .none ∧ t.res = 0x000000#24 ∧ stream t = [] ∧
      (∀ i : PixelIndex, readPixel t i = Config.fbReset t.resets ⟨i.toNat, i.isLt⟩) ∧
      t.resets = s.resets + 1 ∧ t.hostWords = s.hostWords ∧ t.pins = s.pins.tail ∧
      ((pinsNow t).rst = false →
        status t = 0#4 ∧ resOut t = 0x000000#24 ∧ cmdReady t = true ∧ txValid t = false ∧ txData t = 0x00#8)

/-- 60_exceptions.md R205, 70_reset_and_hazards.md R220, R221: nothing of the block's state survives a reset step under
the same FB_RESET: two states with the same environment and the same number of resets behind them reset alike, whatever
their registers, frame buffer and output stream. That FB_RESET is a function of the number of the reset and the pixel only
is the model's choice (notes/assumptions/1.md and 2.md); the spec leaves open whether the old frame is kept
(70_reset_and_hazards.md R222), and the free value may be any. -/
def Obligations.NothingSurvivesReset : Prop :=
  ∀ s s' : State, (pinsNow s).rst = true → s.pins = s'.pins → s.hostWords = s'.hostWords → s.resets = s'.resets →
    step s = step s'

/-- 10_state.md R37: every step keeps the invariants of the state. -/
def Obligations.StepKeepsStateInvariants : Prop :=
  ∀ s t : State, Wf s → step s = .next t → Wf t

/-- 10_state.md R37, R39, 42_frame_encoder.md R168: the state after reset meets the invariants. -/
def Obligations.ResetStateMeetsInvariants : Prop :=
  Wf State.reset ∧ StreamShape State.reset ∧
  State.reset.mode = .idle ∧ State.reset.pos = 0#11 ∧ State.reset.cause = .none ∧ State.reset.res = 0x000000#24 ∧
  ∀ i : PixelIndex, readPixel State.reset i = Config.fbReset 0 ⟨i.toNat, i.isLt⟩

/-- 60_exceptions.md R190 (no other exception exists): from every state that meets the invariants the machine goes on,
whatever the host presents, the sink does and the reset source does. -/
def Obligations.LegalStatesNeverStop : Prop :=
  ∀ s : State, Wf s → ∃ t, step s = .next t ∧ Wf t

/-- 10_state.md R25, R37: the machine stops in exactly the states the spec says are never reached, at an emit step with
`POS > 1536` (the stop is the model's choice, notes/assumptions/8.md). -/
def Obligations.StopsExactlyOutsideFrame : Prop :=
  ∀ s : State, Stops s ↔
    ((pinsNow s).rst = false ∧ s.mode = .busy ∧ (pinsNow s).txReady = true ∧ 1536 < s.pos.toNat)
end

