-- ==== Sys2Proof/Laws/Decode.lean ====
section
/-! SUPPORT. The laws of the fields of a packed command word. -/

namespace Sys2Proof

variable (op : BitVec 8) (a : Color) (idx : PixelIndex) (b : Color) (r : Ratio)

/-- Which field a bit of a packed word belongs to (30_encoding.md R81). -/
theorem getLsbD_packWord (i : Nat) : (packWord op a idx b r).getLsbD i =
    if i < 17 then r.getLsbD i else if i < 32 then false else if i < 56 then b.getLsbD (i - 32)
    else if i < 62 then idx.getLsbD (i - 56) else if i < 64 then false
    else if i < 88 then a.getLsbD (i - 64) else op.getLsbD (i - 88) := by
  simp only [packWord, BitVec.getLsbD_append]
  split_ifs <;> first | omega | simp only [Nat.sub_sub, BitVec.getLsbD_zero]

@[simp] theorem fieldOp_packWord : fieldOp (packWord op a idx b r) = op := by
  apply BitVec.eq_of_getLsbD_eq
  intro i hi
  simp (disch := omega) only [fieldOp, BitVec.getLsbD_extractLsb', hi, getLsbD_packWord, if_neg, decide_true,
    Bool.true_and, Nat.add_sub_cancel_left]

@[simp] theorem fieldA_packWord : fieldA (packWord op a idx b r) = a := by
  apply BitVec.eq_of_getLsbD_eq
  intro i hi
  simp (disch := omega) only [fieldA, BitVec.getLsbD_extractLsb', hi, getLsbD_packWord, if_neg, if_pos, decide_true,
    Bool.true_and, Nat.add_sub_cancel_left]

@[simp] theorem fieldRsv0_packWord : fieldRsv0 (packWord op a idx b r) = 0#2 := by
  apply BitVec.eq_of_getLsbD_eq
  intro i hi
  simp (disch := omega) only [fieldRsv0, BitVec.getLsbD_extractLsb', hi, getLsbD_packWord, if_neg, if_pos, decide_true,
    Bool.true_and, BitVec.getLsbD_zero]

@[simp] theorem fieldIdx_packWord : fieldIdx (packWord op a idx b r) = idx := by
  apply BitVec.eq_of_getLsbD_eq
  intro i hi
  simp (disch := omega) only [fieldIdx, BitVec.getLsbD_extractLsb', hi, getLsbD_packWord, if_neg, if_pos, decide_true,
    Bool.true_and, Nat.add_sub_cancel_left]

@[simp] theorem fieldB_packWord : fieldB (packWord op a idx b r) = b := by
  apply BitVec.eq_of_getLsbD_eq
  intro i hi
  simp (disch := omega) only [fieldB, BitVec.getLsbD_extractLsb', hi, getLsbD_packWord, if_neg, if_pos, decide_true,
    Bool.true_and, Nat.add_sub_cancel_left]

@[simp] theorem fieldRsv1_packWord : fieldRsv1 (packWord op a idx b r) = 0#15 := by
  apply BitVec.eq_of_getLsbD_eq
  intro i hi
  simp (disch := omega) only [fieldRsv1, BitVec.getLsbD_extractLsb', hi, getLsbD_packWord, if_neg, if_pos, decide_true,
    Bool.true_and, BitVec.getLsbD_zero]

@[simp] theorem fieldR_packWord : fieldR (packWord op a idx b r) = r := by
  apply BitVec.eq_of_getLsbD_eq
  intro i hi
  simp (disch := omega) only [fieldR, BitVec.getLsbD_extractLsb', hi, getLsbD_packWord, if_true, decide_true,
    Bool.true_and, Nat.zero_add]

/-- Everything the decoder can answer (30_encoding.md R87). -/
theorem decode_cases (w : CommandWord) :
    (decodeOperands w (fieldOp w).toNat = none ∧ decode w = .error .illegalOpcode) ∨
    ∃ i, decodeOperands w (fieldOp w).toNat = some i ∧
      ((fieldRsv0 w = 0#2 ∧ fieldRsv1 w = 0#15 ∧ decode w = .ok i) ∨
       (¬(fieldRsv0 w = 0#2 ∧ fieldRsv1 w = 0#15) ∧ decode w = .error .reservedBits)) := by
  unfold decode
  split
  · next h => exact .inl ⟨h, rfl⟩
  · next i h =>
    refine .inr ⟨i, h, ?_⟩
    by_cases hr : fieldRsv0 w = 0#2 ∧ fieldRsv1 w = 0#15
    · exact .inl ⟨hr.1, hr.2, if_pos hr⟩
    · exact .inr ⟨hr, if_neg hr⟩

/-- The opcode map has exactly the nine opcodes 0 to 8 (30_encoding.md R86). -/
theorem decodeOperands_eq_none (w : CommandWord) (n : Nat) : decodeOperands w n = none ↔ 8 < n := by
  by_cases h : n ≤ 8
  · interval_cases n <;> simp [decodeOperands]
  · refine ⟨fun _ => by omega, fun _ => ?_⟩
    unfold decodeOperands
    split <;> first | rfl | (exfalso; omega)

end Sys2Proof
end

