-- ==== Sys2Proof/Laws/Operands.lean ====
section
/-! SUPPORT. The laws of the colour packing and of the lanes. -/

namespace Sys2Proof.Machine

/-- Which channel a bit of a packed colour belongs to (00_scope.md R9). -/
theorem getLsbD_packColor (r g b : Channel) (i : Nat) : (packColor r g b).getLsbD i =
    if i < 8 then b.getLsbD i else if i < 16 then g.getLsbD (i - 8) else r.getLsbD (i - 16) := by
  simp only [packColor, BitVec.getLsbD_append]
  split_ifs <;> first | omega | simp only [Nat.sub_sub]

@[simp] theorem red_packColor (r g b : Channel) : red (packColor r g b) = r := by
  apply BitVec.eq_of_getLsbD_eq
  intro i hi
  simp (disch := omega) only [red, BitVec.getLsbD_extractLsb', hi, getLsbD_packColor, if_neg, decide_true,
    Bool.true_and, Nat.add_sub_cancel_left]

@[simp] theorem green_packColor (r g b : Channel) : green (packColor r g b) = g := by
  apply BitVec.eq_of_getLsbD_eq
  intro i hi
  simp (disch := omega) only [green, BitVec.getLsbD_extractLsb', hi, getLsbD_packColor, if_neg, if_pos, decide_true,
    Bool.true_and, Nat.add_sub_cancel_left]

@[simp] theorem blue_packColor (r g b : Channel) : blue (packColor r g b) = b := by
  apply BitVec.eq_of_getLsbD_eq
  intro i hi
  simp (disch := omega) only [blue, BitVec.getLsbD_extractLsb', hi, getLsbD_packColor, if_true, decide_true,
    Bool.true_and, Nat.zero_add]

/-- A colour is its three channels (00_scope.md R9). -/
theorem packColor_channels (c : Color) : packColor (red c) (green c) (blue c) = c := by
  apply BitVec.eq_of_getLsbD_eq
  intro i hi
  simp only [packColor, red, green, blue, BitVec.getLsbD_append, BitVec.getLsbD_extractLsb']
  by_cases h1 : i < 8
  · simp [h1]
  · by_cases h2 : i < 16
    · have e : 8 + (i - 8) = i := by omega
      have l : i - 8 < 8 := by omega
      simp [h1, l, e]
    · have e : 16 + (i - 8 - 8) = i := by omega
      have l : ¬i - 8 < 8 := by omega
      have l' : i - 8 - 8 < 8 := by omega
      simp [h1, l, l', e]

theorem color_ext {c d : Color} (hr : red c = red d) (hg : green c = green d) (hb : blue c = blue d) : c = d := by
  rw [← packColor_channels c, ← packColor_channels d, hr, hg, hb]

/-- Which bit of the colour word a bit of a channel is (00_scope.md R9). -/
theorem getLsbD_channels (c : Color) (k : Nat) (hk : k < 8) :
    (red c).getLsbD k = c.getLsbD (16 + k) ∧ (green c).getLsbD k = c.getLsbD (8 + k) ∧
      (blue c).getLsbD k = c.getLsbD k := by
  simp [red, green, blue, hk]

/-- A lane value in 0..255 is not narrowed (40_color_alu.md R112). -/
theorem toNat_channelOf {n : Nat} (h : n ≤ 255) : (channelOf n).toNat = n := by
  simpa [channelOf] using Nat.mod_eq_of_lt (by omega : n < 256)

/-- Each lane of a two-operand lane operation is the lane function of that lane's operands (40_color_alu.md R111). -/
theorem lane_mapLanes2 (f : Nat → Nat → Nat) (a b : Color) :
    ∀ ch ∈ [red, green, blue], ch (mapLanes2 f a b) = channelOf (f (ch a).toNat (ch b).toNat) := by
  simp [mapLanes2]

theorem lane_mapLanes (f : Nat → Nat) (a : Color) :
    ∀ ch ∈ [red, green, blue], ch (mapLanes f a) = channelOf (f (ch a).toNat) := by
  simp [mapLanes]

theorem addChan_le (a b : Nat) : addChan a b ≤ 255 := Nat.min_le_left _ _

theorem fadeChan_le (a r : Nat) : fadeChan a r ≤ 255 := Nat.min_le_left _ _

theorem lerpChan_le (a b r : Nat) : lerpChan a b r ≤ 255 := by
  unfold lerpChan
  split
  · exact Nat.zero_le _
  · exact Nat.min_le_left _ _

/-- `LerpChan` as an integer: the truncated, clamped value (40_color_alu.md R115). -/
theorem lerpChan_cast (a b r : Nat) :
    (lerpChan a b r : Int) = if lerpExact a b r < 0 then 0 else min 255 (lerpExact a b r / 65536) := by
  unfold lerpChan ratioOne
  split
  · rfl
  · omega

end Sys2Proof.Machine
end

