-- ==== Sys2Proof/Laws/FrameEncoder.lean ====
section
/-! SUPPORT. The lengths of the parts of a frame image, and the emit step. -/

namespace Sys2Proof.Machine

@[simp] theorem length_encodeChannel (v : Channel) : (encodeChannel v).length = 8 := by
  simp [encodeChannel]

@[simp] theorem length_encodePixel (c : Color) : (encodePixel c).length = 24 := by
  simp [encodePixel]

/-- Everything an emit step can do (42_frame_encoder.md R167). -/
theorem emitStep_cases (s : State) :
    (s.pos.toNat < 1536 ∧ emitStep s = .next (nextPosition (emitByte (frameByte s.fb s.pos.toNat) s))) ∨
    (s.pos.toNat = 1536 ∧ emitStep s = .next (endFrame (emitByte (frameByte s.fb s.pos.toNat) s))) ∨
    (1536 < s.pos.toNat ∧ emitStep s = .fault .positionOutOfFrame) := by
  unfold emitStep
  by_cases h1 : s.pos.toNat < 1536
  · exact .inl ⟨h1, if_pos h1⟩
  · by_cases h2 : s.pos.toNat = 1536
    · exact .inr (.inl ⟨h2, (if_neg h1).trans (if_pos h2)⟩)
    · exact .inr (.inr ⟨by omega, (if_neg h1).trans (if_neg h2)⟩)

end Sys2Proof.Machine
end

