-- ==== Sys2Proof/Laws/State.lean ====
section
/-! SUPPORT. One lemma per field per update of the state, so that no proof unfolds a record update. -/

namespace Sys2Proof.Machine

/-! `writeRes` writes `RES` only. -/

@[simp] theorem writeRes_fb (c : Color) (s : State) : (writeRes c s).fb = s.fb := rfl
@[simp] theorem writeRes_res (c : Color) (s : State) : (writeRes c s).res = c := rfl
@[simp] theorem writeRes_mode (c : Color) (s : State) : (writeRes c s).mode = s.mode := rfl
@[simp] theorem writeRes_pos (c : Color) (s : State) : (writeRes c s).pos = s.pos := rfl
@[simp] theorem writeRes_cause (c : Color) (s : State) : (writeRes c s).cause = s.cause := rfl
@[simp] theorem writeRes_emitted (c : Color) (s : State) : (writeRes c s).emitted = s.emitted := rfl
@[simp] theorem writeRes_hostWords (c : Color) (s : State) : (writeRes c s).hostWords = s.hostWords := rfl
@[simp] theorem writeRes_pins (c : Color) (s : State) : (writeRes c s).pins = s.pins := rfl
@[simp] theorem writeRes_resets (c : Color) (s : State) : (writeRes c s).resets = s.resets := rfl

/-! `writePixel` writes `FB` only. -/

@[simp] theorem writePixel_fb (i : PixelIndex) (c : Color) (s : State) : (writePixel i c s).fb = s.fb.set i.toNat c i.isLt := rfl
@[simp] theorem writePixel_res (i : PixelIndex) (c : Color) (s : State) : (writePixel i c s).res = s.res := rfl
@[simp] theorem writePixel_mode (i : PixelIndex) (c : Color) (s : State) : (writePixel i c s).mode = s.mode := rfl
@[simp] theorem writePixel_pos (i : PixelIndex) (c : Color) (s : State) : (writePixel i c s).pos = s.pos := rfl
@[simp] theorem writePixel_cause (i : PixelIndex) (c : Color) (s : State) : (writePixel i c s).cause = s.cause := rfl
@[simp] theorem writePixel_emitted (i : PixelIndex) (c : Color) (s : State) : (writePixel i c s).emitted = s.emitted := rfl
@[simp] theorem writePixel_hostWords (i : PixelIndex) (c : Color) (s : State) : (writePixel i c s).hostWords = s.hostWords := rfl
@[simp] theorem writePixel_pins (i : PixelIndex) (c : Color) (s : State) : (writePixel i c s).pins = s.pins := rfl
@[simp] theorem writePixel_resets (i : PixelIndex) (c : Color) (s : State) : (writePixel i c s).resets = s.resets := rfl

/-! `fillPixels` writes `FB` only. -/

@[simp] theorem fillPixels_fb (c : Color) (s : State) : (fillPixels c s).fb = Vector.replicate 64 c := rfl
@[simp] theorem fillPixels_res (c : Color) (s : State) : (fillPixels c s).res = s.res := rfl
@[simp] theorem fillPixels_mode (c : Color) (s : State) : (fillPixels c s).mode = s.mode := rfl
@[simp] theorem fillPixels_pos (c : Color) (s : State) : (fillPixels c s).pos = s.pos := rfl
@[simp] theorem fillPixels_cause (c : Color) (s : State) : (fillPixels c s).cause = s.cause := rfl
@[simp] theorem fillPixels_emitted (c : Color) (s : State) : (fillPixels c s).emitted = s.emitted := rfl
@[simp] theorem fillPixels_hostWords (c : Color) (s : State) : (fillPixels c s).hostWords = s.hostWords := rfl
@[simp] theorem fillPixels_pins (c : Color) (s : State) : (fillPixels c s).pins = s.pins := rfl
@[simp] theorem fillPixels_resets (c : Color) (s : State) : (fillPixels c s).resets = s.resets := rfl

/-! `startFrame` writes `MODE` and `POS`. -/

@[simp] theorem startFrame_fb (s : State) : (startFrame s).fb = s.fb := rfl
@[simp] theorem startFrame_res (s : State) : (startFrame s).res = s.res := rfl
@[simp] theorem startFrame_mode (s : State) : (startFrame s).mode = .busy := rfl
@[simp] theorem startFrame_pos (s : State) : (startFrame s).pos = 0#11 := rfl
@[simp] theorem startFrame_cause (s : State) : (startFrame s).cause = s.cause := rfl
@[simp] theorem startFrame_emitted (s : State) : (startFrame s).emitted = s.emitted := rfl
@[simp] theorem startFrame_hostWords (s : State) : (startFrame s).hostWords = s.hostWords := rfl
@[simp] theorem startFrame_pins (s : State) : (startFrame s).pins = s.pins := rfl
@[simp] theorem startFrame_resets (s : State) : (startFrame s).resets = s.resets := rfl

/-! `nextPosition` writes `POS` only. -/

@[simp] theorem nextPosition_fb (s : State) : (nextPosition s).fb = s.fb := rfl
@[simp] theorem nextPosition_res (s : State) : (nextPosition s).res = s.res := rfl
@[simp] theorem nextPosition_mode (s : State) : (nextPosition s).mode = s.mode := rfl
@[simp] theorem nextPosition_pos (s : State) : (nextPosition s).pos = s.pos + 1#11 := rfl
@[simp] theorem nextPosition_cause (s : State) : (nextPosition s).cause = s.cause := rfl
@[simp] theorem nextPosition_emitted (s : State) : (nextPosition s).emitted = s.emitted := rfl
@[simp] theorem nextPosition_hostWords (s : State) : (nextPosition s).hostWords = s.hostWords := rfl
@[simp] theorem nextPosition_pins (s : State) : (nextPosition s).pins = s.pins := rfl
@[simp] theorem nextPosition_resets (s : State) : (nextPosition s).resets = s.resets := rfl

/-! `endFrame` writes `MODE` and `POS`. -/

@[simp] theorem endFrame_fb (s : State) : (endFrame s).fb = s.fb := rfl
@[simp] theorem endFrame_res (s : State) : (endFrame s).res = s.res := rfl
@[simp] theorem endFrame_mode (s : State) : (endFrame s).mode = .idle := rfl
@[simp] theorem endFrame_pos (s : State) : (endFrame s).pos = 0#11 := rfl
@[simp] theorem endFrame_cause (s : State) : (endFrame s).cause = s.cause := rfl
@[simp] theorem endFrame_emitted (s : State) : (endFrame s).emitted = s.emitted := rfl
@[simp] theorem endFrame_hostWords (s : State) : (endFrame s).hostWords = s.hostWords := rfl
@[simp] theorem endFrame_pins (s : State) : (endFrame s).pins = s.pins := rfl
@[simp] theorem endFrame_resets (s : State) : (endFrame s).resets = s.resets := rfl

/-! `emitByte` appends to the output stream only. -/

@[simp] theorem emitByte_fb (b : Byte) (s : State) : (emitByte b s).fb = s.fb := rfl
@[simp] theorem emitByte_res (b : Byte) (s : State) : (emitByte b s).res = s.res := rfl
@[simp] theorem emitByte_mode (b : Byte) (s : State) : (emitByte b s).mode = s.mode := rfl
@[simp] theorem emitByte_pos (b : Byte) (s : State) : (emitByte b s).pos = s.pos := rfl
@[simp] theorem emitByte_cause (b : Byte) (s : State) : (emitByte b s).cause = s.cause := rfl
@[simp] theorem emitByte_emitted (b : Byte) (s : State) : (emitByte b s).emitted = b :: s.emitted := rfl
@[simp] theorem emitByte_hostWords (b : Byte) (s : State) : (emitByte b s).hostWords = s.hostWords := rfl
@[simp] theorem emitByte_pins (b : Byte) (s : State) : (emitByte b s).pins = s.pins := rfl
@[simp] theorem emitByte_resets (b : Byte) (s : State) : (emitByte b s).resets = s.resets := rfl

/-! Taking the exception writes `MODE` and `CAUSE`. -/

@[simp] theorem raiseIllegal_fb (c : Cause) (s : State) : (raiseIllegal c s).fb = s.fb := rfl
@[simp] theorem raiseIllegal_res (c : Cause) (s : State) : (raiseIllegal c s).res = s.res := rfl
@[simp] theorem raiseIllegal_mode (c : Cause) (s : State) : (raiseIllegal c s).mode = .fault := rfl
@[simp] theorem raiseIllegal_pos (c : Cause) (s : State) : (raiseIllegal c s).pos = s.pos := rfl
@[simp] theorem raiseIllegal_cause (c : Cause) (s : State) : (raiseIllegal c s).cause = c := rfl
@[simp] theorem raiseIllegal_emitted (c : Cause) (s : State) : (raiseIllegal c s).emitted = s.emitted := rfl
@[simp] theorem raiseIllegal_hostWords (c : Cause) (s : State) : (raiseIllegal c s).hostWords = s.hostWords := rfl
@[simp] theorem raiseIllegal_pins (c : Cause) (s : State) : (raiseIllegal c s).pins = s.pins := rfl
@[simp] theorem raiseIllegal_resets (c : Cause) (s : State) : (raiseIllegal c s).resets = s.resets := rfl

/-! Reset leaves the environment's inputs alone. -/

@[simp] theorem resetBlock_fb (s : State) : (resetBlock s).fb = fbAfterReset (s.resets + 1) := rfl
@[simp] theorem resetBlock_res (s : State) : (resetBlock s).res = 0x000000#24 := rfl
@[simp] theorem resetBlock_mode (s : State) : (resetBlock s).mode = .idle := rfl
@[simp] theorem resetBlock_pos (s : State) : (resetBlock s).pos = 0#11 := rfl
@[simp] theorem resetBlock_cause (s : State) : (resetBlock s).cause = .none := rfl
@[simp] theorem resetBlock_emitted (s : State) : (resetBlock s).emitted = [] := rfl
@[simp] theorem resetBlock_hostWords (s : State) : (resetBlock s).hostWords = s.hostWords := by simp only [resetBlock]
@[simp] theorem resetBlock_pins (s : State) : (resetBlock s).pins = s.pins := by simp only [resetBlock]
@[simp] theorem resetBlock_resets (s : State) : (resetBlock s).resets = s.resets + 1 := rfl

/-! `advancePins` moves the pin schedule only. -/

@[simp] theorem advancePins_fb (s : State) : (advancePins s).fb = s.fb := rfl
@[simp] theorem advancePins_res (s : State) : (advancePins s).res = s.res := rfl
@[simp] theorem advancePins_mode (s : State) : (advancePins s).mode = s.mode := rfl
@[simp] theorem advancePins_pos (s : State) : (advancePins s).pos = s.pos := rfl
@[simp] theorem advancePins_cause (s : State) : (advancePins s).cause = s.cause := rfl
@[simp] theorem advancePins_emitted (s : State) : (advancePins s).emitted = s.emitted := rfl
@[simp] theorem advancePins_hostWords (s : State) : (advancePins s).hostWords = s.hostWords := rfl
@[simp] theorem advancePins_pins (s : State) : (advancePins s).pins = s.pins.tail := rfl
@[simp] theorem advancePins_resets (s : State) : (advancePins s).resets = s.resets := rfl

/-! `takeWord` consumes the presented word only. -/

@[simp] theorem takeWord_fb (s : State) : (takeWord s).fb = s.fb := rfl
@[simp] theorem takeWord_res (s : State) : (takeWord s).res = s.res := rfl
@[simp] theorem takeWord_mode (s : State) : (takeWord s).mode = s.mode := rfl
@[simp] theorem takeWord_pos (s : State) : (takeWord s).pos = s.pos := rfl
@[simp] theorem takeWord_cause (s : State) : (takeWord s).cause = s.cause := rfl
@[simp] theorem takeWord_emitted (s : State) : (takeWord s).emitted = s.emitted := rfl
@[simp] theorem takeWord_hostWords (s : State) : (takeWord s).hostWords = s.hostWords.tail := rfl
@[simp] theorem takeWord_pins (s : State) : (takeWord s).pins = s.pins := rfl
@[simp] theorem takeWord_resets (s : State) : (takeWord s).resets = s.resets := rfl

end Sys2Proof.Machine
end

