-- ==== Sys2Proof/Laws/Memory.lean ====
section
/-! SUPPORT. The laws of the frame buffer: a read after a write, and that every memory operation keeps the one form a
frame buffer has (64 words; there is nothing else in it, so equal buffers are equal data). -/

namespace Sys2Proof.Machine

/-- Two frame buffers that read alike at every index are equal data. -/
theorem fb_ext {f g : FrameBuffer} (h : ∀ i : PixelIndex, f[i.toNat]'i.isLt = g[i.toNat]'i.isLt) : f = g := by
  apply Vector.ext
  intro i hi
  have h' := h (BitVec.ofNat 6 i)
  have e : (BitVec.ofNat 6 i).toNat = i := by simpa using Nat.mod_eq_of_lt hi
  simpa only [e] using h'

theorem readPixel_writePixel (s : State) (i j : PixelIndex) (c : Color) :
    readPixel (writePixel i c s) j = if j = i then c else readPixel s j := by
  by_cases h : j = i
  · subst h; simp [readPixel]
  · have : i.toNat ≠ j.toNat := fun e => h (BitVec.eq_of_toNat_eq e.symm)
    simp [readPixel, h, this]

@[simp] theorem readPixel_fillPixels (s : State) (c : Color) (j : PixelIndex) : readPixel (fillPixels c s) j = c := by
  simp only [readPixel, fillPixels_fb, Vector.getElem_replicate]

/-- Writing the word a pixel already holds changes nothing (41_pixel_access.md R141). -/
theorem writePixel_readPixel (s : State) (i : PixelIndex) : writePixel i (readPixel s i) s = s := by
  have : s.fb.set i.toNat (s.fb[i.toNat]'i.isLt) i.isLt = s.fb := by simp
  simp only [writePixel, readPixel, this]

/-- Every operation on the frame buffer leaves it with exactly 64 words (10_state.md R23). -/
theorem memory_ops_keep_length (s : State) (i : PixelIndex) (c : Color) :
    (writePixel i c s).fb.toList.length = 64 ∧ (fillPixels c s).fb.toList.length = 64 ∧
      (resetBlock s).fb.toList.length = 64 ∧ State.reset.fb.toList.length = 64 := by
  refine ⟨?_, ?_, ?_, ?_⟩ <;> exact Vector.length_toList

/-- The frame buffer a reset leaves holds the free value at every index (10_state.md R38). -/
theorem readPixel_of_fbAfterReset {s : State} {n : Nat} (h : s.fb = fbAfterReset n) (i : PixelIndex) :
    readPixel s i = Config.fbReset n ⟨i.toNat, i.isLt⟩ := by
  unfold readPixel
  simp only [h, fbAfterReset, Vector.getElem_ofFn]

theorem readPixel_resetBlock (s : State) (i : PixelIndex) :
    readPixel (resetBlock s) i = Config.fbReset (s.resets + 1) ⟨i.toNat, i.isLt⟩ :=
  readPixel_of_fbAfterReset (resetBlock_fb s) i

theorem readPixel_reset (i : PixelIndex) : readPixel State.reset i = Config.fbReset 0 ⟨i.toNat, i.isLt⟩ :=
  readPixel_of_fbAfterReset (n := 0) (by unfold State.reset; rfl) i

end Sys2Proof.Machine
end

