-- ==== Sys2Proof/Laws/PerInstr.lean ====
section
/-! SUPPORT. Statements made once per constructor of `Instr`. Family `Encoding`: the canonical word of a command holds
its opcode in bits 95:88 and zero in its reserved bits (30_encoding.md R86, R88). -/

namespace Sys2Proof.Laws.Encoding

/-- The word an assembler emits for `i` has `i`'s opcode and clear reserved bits. -/
def Statement (i : Instr) : Prop :=
  fieldOp (encodeInstr i) = i.opcode ∧ fieldRsv0 (encodeInstr i) = 0#2 ∧ fieldRsv1 (encodeInstr i) = 0#15

theorem nop : Statement .nop := by simp [Statement, encodeInstr, Instr.opcode]

theorem add (a b : Color) : Statement (.add a b) := by simp [Statement, encodeInstr, Instr.opcode]

theorem lerp (a b : Color) (r : Ratio) : Statement (.lerp a b r) := by simp [Statement, encodeInstr, Instr.opcode]

theorem fade (a : Color) (r : Ratio) : Statement (.fade a r) := by simp [Statement, encodeInstr, Instr.opcode]

theorem wrpix (i : PixelIndex) (c : Color) : Statement (.wrpix i c) := by simp [Statement, encodeInstr, Instr.opcode]

theorem rdpix (i : PixelIndex) : Statement (.rdpix i) := by simp [Statement, encodeInstr, Instr.opcode]

theorem stres (i : PixelIndex) : Statement (.stres i) := by simp [Statement, encodeInstr, Instr.opcode]

theorem fill (c : Color) : Statement (.fill c) := by simp [Statement, encodeInstr, Instr.opcode]

theorem encode : Statement .encode := by simp [Statement, encodeInstr, Instr.opcode]

end Sys2Proof.Laws.Encoding
end

