-- ==== Sys2Proof/Laws/Step.lean ====
section
/-! SUPPORT. Everything a command and a step can do, once (00_scope.md R12, 60_exceptions.md table T-R199). -/

namespace Sys2Proof.Machine

/-- Everything a command can do: it always completes, and what it writes is one of five kinds. -/
theorem exec_cases (i : Instr) (s : State) :
    (i = .nop ∧ exec i s = .next s) ∨
    (∃ c, i.opcode ∈ [1#8, 2#8, 3#8, 5#8] ∧ exec i s = .next (writeRes c s)) ∨
    (∃ j c, i.opcode ∈ [4#8, 6#8] ∧ exec i s = .next (writePixel j c s)) ∨
    (∃ c, i = .fill c ∧ exec i s = .next (fillPixels c s)) ∨
    (i = .encode ∧ exec i s = .next (startFrame s)) := by
  cases i with
  | nop => exact .inl ⟨rfl, rfl⟩
  | add a b => exact .inr (.inl ⟨_, by simp [Instr.opcode], rfl⟩)
  | lerp a b r => exact .inr (.inl ⟨_, by simp [Instr.opcode], rfl⟩)
  | fade a r => exact .inr (.inl ⟨_, by simp [Instr.opcode], rfl⟩)
  | wrpix j c => exact .inr (.inr (.inl ⟨_, _, by simp [Instr.opcode], rfl⟩))
  | rdpix j => exact .inr (.inl ⟨_, by simp [Instr.opcode], rfl⟩)
  | stres j => exact .inr (.inr (.inl ⟨_, _, by simp [Instr.opcode], rfl⟩))
  | fill c => exact .inr (.inr (.inr (.inl ⟨_, rfl, rfl⟩)))
  | encode => exact .inr (.inr (.inr (.inr ⟨rfl, rfl⟩)))

/-- Everything a step can do. -/
theorem step_cases (s : State) :
    ((pinsNow s).rst = true ∧ step s = .next (resetBlock (advancePins s))) ∨
    ((pinsNow s).rst = false ∧
      ((s.mode = .idle ∧ s.hostWords = [] ∧ step s = .next (advancePins s)) ∨
       (∃ w ws, s.mode = .idle ∧ s.hostWords = w :: ws ∧ step s = commandStep w (takeWord (advancePins s))) ∨
       (s.mode = .busy ∧ (pinsNow s).txReady = true ∧ step s = emitStep (advancePins s)) ∨
       (s.mode = .busy ∧ (pinsNow s).txReady = false ∧ step s = .next (advancePins s)) ∨
       (s.mode = .fault ∧ step s = .next (advancePins s)))) := by
  unfold step transferStep stepUnder
  cases hr : (pinsNow s).rst
  · refine .inr ⟨rfl, ?_⟩
    rw [if_neg (by simp)]
    cases hm : s.mode with
    | idle =>
      simp only [advancePins_mode, hm, idleStep, advancePins_hostWords]
      cases hw : s.hostWords with
      | nil => exact .inl ⟨trivial, rfl, rfl⟩
      | cons w ws => exact .inr (.inl ⟨w, ws, trivial, rfl, rfl⟩)
    | busy =>
      simp only [advancePins_mode, hm, busyStep]
      cases ht : (pinsNow s).txReady
      · exact .inr (.inr (.inr (.inl ⟨trivial, rfl, rfl⟩)))
      · exact .inr (.inr (.inl ⟨trivial, rfl, rfl⟩))
    | fault =>
      simp only [advancePins_mode, hm]
      exact .inr (.inr (.inr (.inr ⟨trivial, trivial⟩)))
  · exact .inl ⟨rfl, if_pos rfl⟩

/-- Everything a command step can do: the decoded command, or the exception. -/
theorem commandStep_cases (w : CommandWord) (s : State) :
    (∃ i, decode w = .ok i ∧ commandStep w s = exec i s) ∨
    (∃ e, decode w = .error e ∧ commandStep w s = .next (raiseIllegal (rejectCause e) s)) := by
  unfold commandStep
  cases h : decode w with
  | ok i => exact .inl ⟨i, rfl, rfl⟩
  | error e => exact .inr ⟨e, rfl, rfl⟩

/-- What a command did, if it answered `t`. -/
theorem exec_next_cases {i : Instr} {s t : State} (h : exec i s = .next t) :
    (i = .nop ∧ t = s) ∨
    (∃ c, i.opcode ∈ [1#8, 2#8, 3#8, 5#8] ∧ t = writeRes c s) ∨
    (∃ j c, i.opcode ∈ [4#8, 6#8] ∧ t = writePixel j c s) ∨
    (∃ c, i = .fill c ∧ t = fillPixels c s) ∨
    (i = .encode ∧ t = startFrame s) := by
  have key : ∀ u, exec i s = .next u → t = u := fun u hu => Host.Outcome.next.inj (h.symm.trans hu)
  rcases exec_cases i s with ⟨a, e⟩ | ⟨c, a, e⟩ | ⟨j, c, a, e⟩ | ⟨c, a, e⟩ | ⟨a, e⟩
  · exact .inl ⟨a, key _ e⟩
  · exact .inr (.inl ⟨c, a, key _ e⟩)
  · exact .inr (.inr (.inl ⟨j, c, a, key _ e⟩))
  · exact .inr (.inr (.inr (.inl ⟨c, a, key _ e⟩)))
  · exact .inr (.inr (.inr (.inr ⟨a, key _ e⟩)))

/-- What a step did, if it answered `t`: a reset step; no transfer; a command performed; the exception taken; a byte
emitted in mid-frame; the last byte emitted. -/
theorem step_next_cases {s t : State} (h : step s = .next t) :
    ((pinsNow s).rst = true ∧ t = resetBlock (advancePins s)) ∨
    ((pinsNow s).rst = false ∧
      ((t = advancePins s ∧
          (s.mode = .idle ∧ s.hostWords = [] ∨ s.mode = .busy ∧ (pinsNow s).txReady = false ∨ s.mode = .fault)) ∨
       (∃ w ws i, s.mode = .idle ∧ s.hostWords = w :: ws ∧ decode w = .ok i ∧
          exec i (takeWord (advancePins s)) = .next t) ∨
       (∃ w ws e, s.mode = .idle ∧ s.hostWords = w :: ws ∧ decode w = .error e ∧
          t = raiseIllegal (rejectCause e) (takeWord (advancePins s))) ∨
       (s.mode = .busy ∧ (pinsNow s).txReady = true ∧ s.pos.toNat < 1536 ∧
          t = nextPosition (emitByte (frameByte s.fb s.pos.toNat) (advancePins s))) ∨
       (s.mode = .busy ∧ (pinsNow s).txReady = true ∧ s.pos.toNat = 1536 ∧
          t = endFrame (emitByte (frameByte s.fb s.pos.toNat) (advancePins s))))) := by
  have key : ∀ u, step s = .next u → t = u := fun u hu => Host.Outcome.next.inj (h.symm.trans hu)
  rcases step_cases s with
    ⟨hr, e⟩ | ⟨hr, ⟨hm, hw, e⟩ | ⟨w, ws, hm, hw, e⟩ | ⟨hm, ht, e⟩ | ⟨hm, ht, e⟩ | ⟨hm, e⟩⟩
  · exact .inl ⟨hr, key _ e⟩
  · exact .inr ⟨hr, .inl ⟨key _ e, .inl ⟨hm, hw⟩⟩⟩
  · rcases commandStep_cases w (takeWord (advancePins s)) with ⟨i, hd, e'⟩ | ⟨x, hd, e'⟩
    · exact .inr ⟨hr, .inr (.inl ⟨w, ws, i, hm, hw, hd, (e.trans e').symm.trans h⟩)⟩
    · exact .inr ⟨hr, .inr (.inr (.inl ⟨w, ws, x, hm, hw, hd, key _ (e.trans e')⟩))⟩
  · rcases emitStep_cases (advancePins s) with ⟨hp, e'⟩ | ⟨hp, e'⟩ | ⟨_, e'⟩
    · exact .inr ⟨hr, .inr (.inr (.inr (.inl ⟨hm, ht, hp, key _ (e.trans e')⟩)))⟩
    · exact .inr ⟨hr, .inr (.inr (.inr (.inr ⟨hm, ht, hp, key _ (e.trans e')⟩)))⟩
    · rw [e, e'] at h; cases h
  · exact .inr ⟨hr, .inl ⟨key _ e, .inr (.inl ⟨hm, ht⟩)⟩⟩
  · exact .inr ⟨hr, .inl ⟨key _ e, .inr (.inr hm)⟩⟩

end Sys2Proof.Machine
end

