-- ==== Sys2Proof/Laws/Run.lean ====
section
/-! SUPPORT. The laws of a run: one step at a time, in two parts, and that it is the host's own run. -/

namespace Sys2Proof.Machine

@[simp] theorem runSteps_zero (s : State) : runSteps 0 s = .next s := rfl

theorem runSteps_succ {s t : State} (k : Nat) (h : step s = .next t) : runSteps (k + 1) s = runSteps k t := by
  simp only [runSteps, h]

theorem runSteps_add {s t : State} (j k : Nat) (h : runSteps j s = .next t) : runSteps (j + k) s = runSteps k t := by
  induction j generalizing s with
  | zero => cases h; rw [Nat.zero_add]
  | succ j ih =>
    rw [Nat.succ_add]
    simp only [runSteps] at h ⊢
    cases hs : step s with
    | next u => rw [hs] at h; exact ih h
    | fault r => rw [hs] at h; cases h
    | refused r => rw [hs] at h; cases h

theorem core_run_eq_runSteps (k : Nat) (s : State) : Host.Core.run Sys2Proof.core k s = runSteps k s := by
  induction k generalizing s with
  | zero => rfl
  | succ k ih =>
    cases h : step s with
    | next t =>
      have h' : Host.Core.step Sys2Proof.core s = .next t := h
      simp only [Host.Core.run, h']
      exact (ih t).trans (runSteps_succ k h).symm
    | fault r =>
      have h' : Host.Core.step Sys2Proof.core s = .fault r := h
      simp only [Host.Core.run, h', runSteps, h]
      rfl
    | refused r =>
      have h' : Host.Core.step Sys2Proof.core s = .refused r := h
      simp only [Host.Core.run, h', runSteps, h]
      rfl

end Sys2Proof.Machine
end

