-- ==== Sys2Proof/Tests/Slice0.lean ====
section
/-! SUPPORT. The model's own tests. Expected values come from spec/95_test_vectors.md (named in each comment) or are
worked by hand from the rule named. The last part shows, for each statement with hypotheses, that they can be met. -/

namespace Sys2Proof.Tests

open Sys2Proof Sys2Proof.Machine

/-! ### States to test on -/

/-- IDLE with a black frame buffer, `RES = #111111`, and an environment that does nothing. -/
def blank : State :=
  { fb := Vector.replicate 64 0#24, res := 0x111111#24, mode := .idle, pos := 0#11, cause := .none, emitted := [],
    hostWords := [], pins := [], resets := 0 }

/-- `blank` with the host presenting `w`. -/
def given (w : CommandWord) : State := { blank with hostWords := [w] }

/-- BUSY at position `p` with the pins `q` next. -/
def busyAt (p : Position) (q : Pins) : State := { blank with mode := .busy, pos := p, pins := [q] }

def ready : Pins := { rst := false, txReady := true }
def stalled : Pins := { rst := false, txReady := false }
def resetting : Pins := { rst := true, txReady := true }

/-- FAULT with cause ILLEGAL_OPCODE. -/
def faulted : State := { blank with mode := .fault, cause := .illegalOpcode }

/-- A view of the state a step answers, or of nothing. -/
def after {α : Type} (r : Result) (f : State → α) : Option α :=
  match r with
  | .next t => some (f t)
  | .fault _ => none
  | .refused _ => none

/-! ### Well-formedness: an ill-formed word for each check -/

/-- V-DEC-1: opcode 0x09. -/
theorem test_reserved_opcode_is_ill_formed :
    CommandWord.opcodeDefined 0x090000000000000000000000#96 = false ∧
    CommandWord.wellFormed 0x090000000000000000000000#96 = false := by decide

/-- V-DEC-4: ADD with `CW[62] = 1`. -/
theorem test_reserved0_is_ill_formed :
    CommandWord.reserved0Clear 0x010000004000000000000000#96 = false ∧
    CommandWord.wellFormed 0x010000004000000000000000#96 = false := by decide

/-- V-DEC-5: ENCODE with `CW[17] = 1`. -/
theorem test_reserved1_is_ill_formed :
    CommandWord.reserved1Clear 0x080000000000000000020000#96 = false ∧
    CommandWord.wellFormed 0x080000000000000000020000#96 = false := by decide

/-- V-ADD-11: a well-formed word with unused fields set is not canonical; V-ADD-1 is. -/
theorem test_unused_fields_are_not_canonical :
    CommandWord.wellFormed 0x01FA00003F0A00000001FFFF#96 = true ∧
    CommandWord.canonical 0x01FA00003F0A00000001FFFF#96 = false ∧
    CommandWord.canonical 0x01FA0000000A000000000000#96 = true := by decide

/-! ### Decoding: words written out in the spec -/

/-- 30_encoding.md R88 (d). -/
theorem test_decode_nop : decode 0x000000000000000000000000#96 = .ok .nop := by decide

/-- V-ADD-6. -/
theorem test_decode_add : decode 0x011234560065432100000000#96 = .ok (.add 0x123456#24 0x654321#24) := by decide

/-- V-LERP-4: bit 16 of `R` is the integer bit. -/
theorem test_decode_lerp :
    decode 0x0212345600FEDCBA00010000#96 = .ok (.lerp 0x123456#24 0xFEDCBA#24 65536#17) := by decide

/-- V-FADE-6. -/
theorem test_decode_fade : decode 0x03C864320000000000004000#96 = .ok (.fade 0xC86432#24 16384#17) := by decide

/-- V-PIX-2. -/
theorem test_decode_wrpix : decode 0x040000FF3F00000000000000#96 = .ok (.wrpix 63#6 0x0000FF#24) := by decide

/-- V-DEC-7: unused fields nonzero. -/
theorem test_decode_rdpix : decode 0x05ABCDEF051234560001FFFF#96 = .ok (.rdpix 5#6) := by decide

/-- V-PIX-8. -/
theorem test_decode_stres : decode 0x060000000A00000000000000#96 = .ok (.stres 10#6) := by decide

/-- V-PIX-5. -/
theorem test_decode_fill : decode 0x071010100000000000000000#96 = .ok (.fill 0x101010#24) := by decide

/-- V-DEC-9. -/
theorem test_decode_encode : decode 0x08FFFFFF3FFFFFFF0001FFFF#96 = .ok .encode := by decide

/-- V-DEC-2, V-DEC-3: the opcode check comes first. -/
theorem test_decode_opcode_first :
    decode 0xFFFFFFFFFFFFFFFFFFFFFFFF#96 = .error .illegalOpcode ∧
    decode 0x0900000040000000FFFE0000#96 = .error .illegalOpcode := by decide

/-- V-DEC-6: a NOP with a reserved bit is rejected. -/
theorem test_decode_nop_reserved : decode 0x000000008000000000000000#96 = .error .reservedBits := by decide

/-- 30_encoding.md R90. -/
theorem test_encode_words :
    encodeInstr (.add 0xFA0000#24 0x0A0000#24) = 0x01FA0000000A000000000000#96 ∧
    encodeInstr (.lerp 0xFFFFFF#24 0#24 32768#17) = 0x02FFFFFF0000000000008000#96 ∧
    encodeInstr (.wrpix 63#6 0x0000FF#24) = 0x040000FF3F00000000000000#96 := by decide

/-- The table's numbering: the word itself, bit 0 least significant. -/
theorem test_decode_table_word : decodeTableWord 96 0x060000000200000000000000 = some (.stres 2#6) := by decide

/-! ### Commands, by the word -/

/-- V-ADD-9: blue saturates and does not carry into green. -/
theorem test_add_no_carry : after (step (given 0x010000FF0000000100000000#96)) (·.res) = some 0x0000FF#24 := by decide

/-- V-ADD-4. -/
theorem test_add_saturates : after (step (given 0x0180FF01008001FE00000000#96)) (·.res) = some 0xFFFFFF#24 := by decide

/-- V-LERP-10: lanes independent, truncated both rising and falling. -/
theorem test_lerp_truncates : after (step (given 0x0200FF8000FF008000004000#96)) (·.res) = some 0x3FBF80#24 := by decide

/-- V-LERPX-5: beyond 1.0, falling. -/
theorem test_lerp_extrapolates : after (step (given 0x02C8140000640A0000018000#96)) (·.res) = some 0x320500#24 := by
  decide

/-- V-FADE-5. -/
theorem test_fade_truncates : after (step (given 0x030102030000000000008000#96)) (·.res) = some 0x000101#24 := by decide

/-- V-FADE-12: beyond 1.0, clamped. -/
theorem test_fade_clamps : after (step (given 0x0380FF400000000000018000#96)) (·.res) = some 0xC0FF60#24 := by decide

/-- V-PIX-2: the highest index; its neighbour and `RES` keep their values. -/
theorem test_wrpix_top :
    after (step (given 0x040000FF3F00000000000000#96)) (fun t => (readPixel t 63#6, readPixel t 62#6, t.res)) =
      some (0x0000FF#24, 0#24, 0x111111#24) := by decide

/-- V-DEC-7 on a buffer with `FB[5] = #050505`. -/
theorem test_rdpix :
    after (step { given 0x05ABCDEF051234560001FFFF#96 with fb := (Vector.replicate 64 0#24).set 5 0x050505#24 })
      (·.res) = some 0x050505#24 := by decide

/-- V-PIX-7: a read of a pixel not written since reset gives its free value and is no fault. -/
theorem test_rdpix_after_reset :
    after (exec (.rdpix 9#6) State.reset) (·.res) = some (Config.fbReset 0 ⟨9, by decide⟩) :=
  congrArg some (readPixel_reset 9#6)

/-- V-PIX-4: straight after reset `RES` is zero, and STRES writes it. -/
theorem test_stres_after_reset :
    after (step (State.reset.withFetchWord 96 0x060000000700000000000000)) (fun t => (readPixel t 7#6, t.res)) =
      some (0#24, 0#24) := by decide

/-- V-PIX-5. -/
theorem test_fill :
    after (step (given 0x071010100000000000000000#96)) (fun t => (readPixel t 0#6, readPixel t 63#6, t.res)) =
      some (0x101010#24, 0x101010#24, 0x111111#24) := by decide

/-- V-PIX-10: the word is consumed and nothing else happens. -/
theorem test_nop : step (given 0x000000000000000000000000#96) = .next blank := rfl

/-- V-ENC-5. -/
theorem test_encode_starts :
    after (step (given 0x080000000000000000000000#96))
      (fun t => (t.mode, t.pos, t.res, txData t)) = some (.busy, 0#11, 0x111111#24, 0xC0#8) ∧
    after (step (given 0x080000000000000000000000#96)) (fun t => (stream t, txValid t, cmdReady t)) =
      some ([], true, false) := by decide

/-! ### Faults, emission, reset -/

/-- V-DEC-1. -/
theorem test_illegal_opcode :
    after (step (given 0x090000000000000000000000#96))
      (fun t => (t.mode, causeOut t, t.res, t.hostWords)) = some (.fault, 1#2, 0x111111#24, []) ∧
    after (step (given 0x090000000000000000000000#96)) (fun t => (status t, cmdReady t)) =
      some (0b0110#4, false) := by decide

/-- V-DEC-5: no frame starts. -/
theorem test_reserved_bits :
    after (step (given 0x080000000000000000020000#96)) (fun t => (t.mode, causeOut t, t.pos, txValid t)) =
      some (.fault, 2#2, 0#11, false) := by decide

/-- V-DEC-10: in FAULT the presented word is not taken. -/
theorem test_fault_takes_no_word :
    after (step { faulted with hostWords := [0#96] }) (fun t => (t.mode, causeOut t, t.hostWords)) =
      some (.fault, 1#2, [0#96]) := by decide

/-- V-ENC-7. -/
theorem test_last_pixel_byte :
    after (step { busyAt 1535#11 ready with fb := (Vector.replicate 64 0#24).set 63 0x000001#24 })
      (fun t => (stream t, t.pos, t.mode)) = some ([0xFC#8], 1536#11, .busy) := by decide

/-- V-ENC-8. -/
theorem test_trailer :
    after (step (busyAt 1536#11 ready)) (fun t => (stream t, t.pos, t.mode, cmdReady t, txValid t)) =
      some ([0x00#8], 0#11, .idle, true, false) := by decide

/-- V-PIX-9: in BUSY a presented word waits. -/
theorem test_busy_interlock :
    after (step { busyAt 3#11 stalled with hostWords := [0x04FFFFFF0000000000000000#96] })
      (fun t => (readPixel t 0#6, t.pos, t.hostWords)) = some (0#24, 3#11, [0x04FFFFFF0000000000000000#96]) := by decide

/-- V-ENC-3: the position law. -/
theorem test_frame_positions :
    frameByte ((Vector.replicate 64 0#24).set 1 0x008000#24) 32 = 0xFC#8 ∧
    frameByte ((Vector.replicate 64 0#24).set 2 0x000080#24) 64 = 0xFC#8 ∧
    frameByte ((Vector.replicate 64 0#24).set 63 0x000001#24) 1535 = 0xFC#8 ∧
    frameByte ((Vector.replicate 64 0#24).set 63 0x000001#24) 1534 = 0xC0#8 := by decide

/-- The table of `EncodeChannel`, `0xA5`. -/
theorem test_encode_channel :
    encodeChannel 0xA5#8 = [0xFC#8, 0xC0#8, 0xFC#8, 0xC0#8, 0xC0#8, 0xFC#8, 0xC0#8, 0xFC#8] := by decide

/-- V-RST-2: reset from FAULT; the presented word is still there. -/
theorem test_reset_from_fault :
    after (step { faulted with pins := [resetting], hostWords := [0#96] })
      (fun t => (t.mode, causeOut t, t.res, cmdReady t, t.hostWords)) = some (.idle, 0#2, 0#24, true, [0#96]) := by
  decide

/-- V-RST-1: reset in mid-frame; no trailer is sent and the stream of the new run is empty. -/
theorem test_reset_in_frame :
    after (step { busyAt 3#11 resetting with emitted := [0xC0#8, 0xC0#8, 0xC0#8] })
      (fun t => (t.mode, t.pos, stream t, txValid t, txData t)) = some (.idle, 0#11, [], false, 0#8) := by decide

/-- A command comes to run from reset: presented, it is taken by the very next step. -/
theorem test_fetch_from_reset :
    after (step (State.reset.withFetchWord 96 0x01FA0000000A000000000000)) (·.res) = some 0xFF0000#24 := by decide

/-- `withFetchWord` lets the next step take the word from BUSY and under reset too. -/
theorem test_fetch_from_busy_under_reset :
    after (step ((busyAt 3#11 resetting).withFetchWord 96 0x013366990000000000000000))
      (fun t => (t.res, t.mode, t.pos, t.hostWords)) = some (0x336699#24, .idle, 0#11, []) := by decide

/-! ### The assembler -/

/-- 30_encoding.md R92: `FADE #C86432, HALF ; half` and `WRPIX 64, #0000FF`. -/
theorem test_assemble_text :
    assembleLines [['F', 'A', 'D', 'E', ' ', '#', 'C', '8', '6', '4', '3', '2', ',', ' ', 'H', 'A', 'L', 'F', ' ', ';',
        ' ', 'h'], [], ['L', 'D', 'C', ' ', '#', '3', '3', '6', '6', '9', '9']] =
      .ok [0x03C864320000000000008000#96, 0x013366990000000000000000#96] ∧
    assembleLines [['R', 'D', 'P', 'I', 'X', ' ', '6', '4']] = .error .outOfRange := by decide

/-! ### The hypotheses of the statements can be met -/

theorem witness_presents_nop : Presents (given 0#96) 0#96 ∧ decode 0#96 = .ok .nop := by decide

theorem witness_presents_each_outcome :
    Presents (given 0x080000000000000000000000#96) 0x080000000000000000000000#96 ∧
    ((0x080000000000000000000000#96).extractLsb' 88 8).toNat = 8 ∧
    Presents (given 0x090000000000000000000000#96) 0x090000000000000000000000#96 ∧
    8 < ((0x090000000000000000000000#96).extractLsb' 88 8).toNat ∧
    Presents (given 0x080000000000000000020000#96) 0x080000000000000000020000#96 ∧
    (0x080000000000000000020000#96).extractLsb' 17 15 ≠ 0#15 ∧
    Presents (given 0x010000004000000000000000#96) 0x010000004000000000000000#96 ∧
    (0x010000004000000000000000#96).extractLsb' 62 2 ≠ 0#2 := by decide

theorem witness_words_differing_in_unused_fields :
    0x01FA00003F0A00000001FFFF#96 &&&
        (CommandWord.usedMask ((0x01FA00003F0A00000001FFFF#96) >>> 88).toNat ||| 0xFF000000C0000000FFFE0000#96) =
      0x01FA0000000A000000000000#96 &&&
        (CommandWord.usedMask ((0x01FA00003F0A00000001FFFF#96) >>> 88).toNat ||| 0xFF000000C0000000FFFE0000#96) ∧
    decode 0x01FA00003F0A00000001FFFF#96 = .ok (.add 0xFA0000#24 0x0A0000#24) := by decide

theorem witness_mask_selects_top_and_bottom :
    0x08FFFFFF3FFFFFFF0001FFFF#96 &&& 0xFF000000C0000000FFFE0000#96 = BitVec.ofNat 96 8 <<< 88 ∧
    0x00FFFFFF3FFFFFFF0001FFFF#96 &&& 0xFF000000C0000000FFFE0000#96 = BitVec.ofNat 96 0 <<< 88 := by decide

/-- Accepted: each operand of each source command at the top of its range. -/
theorem witness_assembler_accepts :
    ∀ c ∈ [AsmCommand.nop, .add 16777215 16777215, .lerp 16777215 16777215 131071, .fade 16777215 131071,
        .wrpix 63 16777215, .rdpix 63, .stres 63, .fill 16777215, .encode, .clear, .ldc 16777215],
      (assemble c).isOk = true := by decide

/-- Rejected: each operand of each source command just above its range, the others in theirs. -/
theorem witness_assembler_rejects :
    ∀ c ∈ [AsmCommand.add 16777216 0, .add 0 16777216, .lerp 16777216 0 0, .lerp 0 16777216 0, .lerp 0 0 131072,
        .fade 16777216 0, .fade 0 131072, .wrpix 64 0, .wrpix 0 16777216, .rdpix 64, .stres 64, .fill 16777216,
        .ldc 16777216],
      (assemble c).isOk = false := by decide

theorem witness_idle : blank.mode = .idle ∧ State.reset.mode = .idle := ⟨rfl, rfl⟩

/-- The ends of the domains of the lane functions, and each case of LERP beyond 1.0. -/
theorem witness_lane_domains :
    lerpChan 255 0 0 = 255 ∧ lerpChan 255 0 65536 = 0 ∧ lerpExact 255 0 65537 < 0 ∧
    255 * 65536 ≤ lerpExact 0 255 65537 ∧ lerpExact 0 1 131071 < 255 * 65536 ∧ 0 ≤ lerpExact 255 254 131071 ∧
    lerpChan 7 7 131071 = 7 ∧ fadeChan 255 131071 = 255 ∧ addChan 255 255 = 255 := by decide

theorem witness_lane_equal_others_not :
    blank.mode = .idle ∧ ({ blank with res := 0#24 } : State).mode = .idle ∧
    red 0x12AB34#24 = red 0x120000#24 ∧ green 0x12AB34#24 ≠ green 0x120000#24 ∧
    blue 0x12AB34#24 ≠ blue 0x120000#24 := by decide

/-- Two different states, two different words with the same arithmetic fields. -/
theorem witness_arithmetic_fields :
    Presents (given 0x01FA0000000A000000000000#96) 0x01FA0000000A000000000000#96 ∧
    Presents { given 0x01FA00003F0A000000000000#96 with res := 0#24 } 0x01FA00003F0A000000000000#96 ∧
    CommandWord.wellFormed 0x01FA0000000A000000000000#96 = true ∧
    CommandWord.wellFormed 0x01FA00003F0A000000000000#96 = true ∧
    (0x01FA0000000A000000000000#96).extractLsb' 88 8 ∈ [1#8, 2#8, 3#8] ∧
    (0x01FA0000000A000000000000#96).extractLsb' 88 8 = (0x01FA00003F0A000000000000#96).extractLsb' 88 8 ∧
    (0x01FA0000000A000000000000#96).extractLsb' 64 24 = (0x01FA00003F0A000000000000#96).extractLsb' 64 24 ∧
    (0x01FA0000000A000000000000#96).extractLsb' 32 24 = (0x01FA00003F0A000000000000#96).extractLsb' 32 24 ∧
    (0x01FA0000000A000000000000#96).extractLsb' 0 17 = (0x01FA00003F0A000000000000#96).extractLsb' 0 17 ∧
    after (step (given 0x01FA0000000A000000000000#96)) (·.res) = some 0xFF0000#24 ∧
    after (step { given 0x01FA00003F0A000000000000#96 with res := 0#24 }) (·.res) = some 0xFF0000#24 := by decide

theorem witness_result_changes :
    (pinsNow (given 0x01FA0000000A000000000000#96)).rst = false ∧
    ∃ t, step (given 0x01FA0000000A000000000000#96) = .next t ∧ t.res ≠ (given 0x01FA0000000A000000000000#96).res :=
  ⟨rfl, _, rfl, by decide⟩

theorem witness_frame_buffer_changes :
    (pinsNow (given 0x071010100000000000000000#96)).rst = false ∧
    ∃ t, step (given 0x071010100000000000000000#96) = .next t ∧ readPixel t 0#6 ≠ readPixel blank 0#6 :=
  ⟨rfl, _, rfl, by decide⟩

theorem witness_position_changes_in_mid_frame :
    Wf (busyAt 1535#11 ready) ∧ ∃ t, step (busyAt 1535#11 ready) = .next t ∧ t.pos ≠ (busyAt 1535#11 ready).pos :=
  ⟨by decide, _, rfl, by decide⟩

theorem witness_position_changes_at_frame_end :
    Wf (busyAt 1536#11 ready) ∧ ∃ t, step (busyAt 1536#11 ready) = .next t ∧ t.pos ≠ (busyAt 1536#11 ready).pos :=
  ⟨by decide, _, rfl, by decide⟩

theorem witness_position_changes_by_reset :
    Wf (busyAt 3#11 resetting) ∧ ∃ t, step (busyAt 3#11 resetting) = .next t ∧ t.pos ≠ (busyAt 3#11 resetting).pos :=
  ⟨by decide, _, rfl, by decide⟩

theorem witness_emit_step :
    (busyAt 1536#11 ready).mode = .busy ∧ (busyAt 1536#11 ready).pos.toNat = 1536 ∧
    (pinsNow (busyAt 1536#11 ready)).rst = false ∧ (pinsNow (busyAt 1536#11 ready)).txReady = true ∧
    (busyAt 0#11 ready).pos.toNat < 1536 ∧ (pinsNow (busyAt 0#11 stalled)).txReady = false := by decide

/-- ENCODE presented, the sink ready at each of the following 1537 steps but one, at which it stalls. -/
theorem witness_frame_theorem :
    ∃ (s : State) (p : Pins) (ps rest : List Pins),
      Presents s 0x080000000000000000000000#96 ∧ decode 0x080000000000000000000000#96 = .ok .encode ∧
      s.pins = p :: ps ++ { rst := false, txReady := true } :: rest ∧ (∀ q ∈ ps, q.rst = false) ∧
      ps.countP (fun q => q.txReady) = 1536 := by
  refine ⟨{ given 0x080000000000000000000000#96 with pins := stalled :: (stalled :: List.replicate 1536 ready) ++ [ready] },
    stalled, stalled :: List.replicate 1536 ready, [], by decide, by decide, rfl, ?_, ?_⟩
  · intro q hq
    rcases List.mem_cons.1 hq with rfl | hq
    · rfl
    · rw [(List.mem_replicate.1 hq).2]; rfl
  · rw [List.countP_cons_of_neg (by decide), List.countP_replicate, if_pos (by decide)]

/-- Mid-frame: one byte of a black frame emitted. -/
theorem witness_stream_shape :
    Wf { busyAt 1#11 ready with emitted := [0xC0#8] } ∧ StreamShape { busyAt 1#11 ready with emitted := [0xC0#8] } ∧
    ∃ t, step { busyAt 1#11 ready with emitted := [0xC0#8] } = .next t :=
  ⟨by decide, ⟨[], by decide⟩, _, rfl⟩

/-- Any frames completed, the first byte of the next emitted. -/
theorem witness_stream_length (done : List FrameBuffer) :
    ∃ s : State, s.pos.toNat ≤ 1536 ∧
      stream s = done.flatMap encodeFrame ++ (encodeFrame s.fb).take s.pos.toNat ∧ s.pos = 1#11 := by
  refine ⟨{ busyAt 1#11 ready with emitted := (done.flatMap encodeFrame ++ (encodeFrame blank.fb).take 1).reverse },
    (by decide : (1#11).toNat ≤ 1536), ?_, rfl⟩
  unfold stream
  rw [List.reverse_reverse]
  rfl

/-- One black frame completed, the first byte of the next emitted. -/
theorem witness_stream_length_one_frame :
    ∃ s : State, s.pos.toNat ≤ 1536 ∧
      stream s = [blank.fb].flatMap encodeFrame ++ (encodeFrame s.fb).take s.pos.toNat ∧ s.pos = 1#11 :=
  witness_stream_length [blank.fb]

theorem witness_illegal_words :
    Presents (given 0xFFFFFFFFFFFFFFFFFFFFFFFF#96) 0xFFFFFFFFFFFFFFFFFFFFFFFF#96 ∧
    decode 0xFFFFFFFFFFFFFFFFFFFFFFFF#96 = .error .illegalOpcode ∧
    Presents (given 0x000000008000000000000000#96) 0x000000008000000000000000#96 ∧
    decode 0x000000008000000000000000#96 = .error .reservedBits := by decide

theorem witness_fault_without_reset :
    EndsInFault { faulted with pins := [ready], hostWords := [0#96] } ∧ ∀ p ∈ [ready], p.rst = false := by decide

theorem witness_busy_with_word_waiting :
    ({ busyAt 3#11 ready with hostWords := [0#96] } : State).mode = .busy ∧
    (pinsNow { busyAt 3#11 ready with hostWords := [0#96] }).rst = false ∧
    ∃ t, step { busyAt 3#11 ready with hostWords := [0#96] } = .next t :=
  ⟨rfl, rfl, _, rfl⟩

theorem witness_stalled_sink :
    (busyAt 3#11 stalled).mode = .busy ∧ ∀ p ∈ (busyAt 3#11 stalled).pins, p.rst = false ∧ p.txReady = false := by
  decide

theorem witness_ended_run : EndsWell { blank with pins := [ready] } ∧ ∀ p ∈ [ready], p.rst = false := by decide

/-- Each clause of the transfer statement: a command transfer, a byte transfer, neither, and reset. -/
theorem witness_transfers :
    commandTransfer (given 0#96) = true ∧ byteTransfer (busyAt 0#11 ready) = true ∧
    commandTransfer blank = false ∧ byteTransfer (busyAt 0#11 stalled) = false ∧
    (pinsNow (busyAt 0#11 resetting)).rst = true ∧ byteTransfer (busyAt 0#11 resetting) = false := by decide

/-- Each transition of `MODE`. -/
theorem witness_mode_transitions :
    after (step (given 0x080000000000000000000000#96)) (·.mode) = some .busy ∧
    after (step (given 0x090000000000000000000000#96)) (·.mode) = some .fault ∧
    after (step (busyAt 1536#11 ready)) (·.mode) = some .idle ∧
    after (step { faulted with pins := [resetting] }) (·.mode) = some .idle ∧
    after (step (given 0#96)) (·.mode) = some .idle := by decide

theorem witness_outputs :
    (pinsNow (busyAt 1536#11 ready)).rst = false ∧ (busyAt 1536#11 ready).mode = .busy ∧
    (busyAt 1536#11 ready).pos.toNat ≤ 1536 ∧ (pinsNow blank).rst = false ∧ blank.mode ≠ .busy := by decide

/-- A state in mid-frame and one in FAULT that differ in every register and in the stream, reset alike. -/
theorem witness_reset :
    ∃ s s' : State, (pinsNow s).rst = true ∧ s.pins = s'.pins ∧ s.hostWords = s'.hostWords ∧ s.resets = s'.resets ∧
      (s.fb ≠ s'.fb ∧ s.res ≠ s'.res ∧ s.mode ≠ s'.mode ∧ s.pos ≠ s'.pos ∧ s.cause ≠ s'.cause) ∧
      s.emitted ≠ s'.emitted :=
  ⟨{ busyAt 3#11 resetting with emitted := [0xC0#8, 0xC0#8, 0xC0#8] },
    { faulted with fb := Vector.replicate 64 0x010203#24, res := 0x222222#24, pins := [resetting] },
    rfl, rfl, rfl, rfl, by decide, by decide⟩

theorem witness_legal_states : Wf blank ∧ Wf faulted ∧ Wf (busyAt 1536#11 ready) ∧ Wf (busyAt 0#11 stalled) := by decide

theorem witness_outside_frame :
    step (busyAt 1537#11 ready) = .fault .positionOutOfFrame ∧ ¬Wf (busyAt 1537#11 ready) := ⟨rfl, by decide⟩

end Sys2Proof.Tests
end

/-! Proofs about whole steps and the state (10_state.md). First the rules: what a command keeps, when a transfer happens,
what a step does to the words and the stream; then the obligations. -/

namespace Sys2Proof.Machine

/-! ### What a command changes and keeps -/

/-- The control registers under a command: only ENCODE moves `MODE` and `POS`, and none writes `CAUSE`. -/
theorem exec_control {i : Instr} {s t : State} (h : exec i s = .next t) :
    t.cause = s.cause ∧
      ((i ≠ .encode ∧ t.mode = s.mode ∧ t.pos = s.pos) ∨ (i = .encode ∧ t.mode = .busy ∧ t.pos = 0#11)) := by
  rcases exec_next_cases h with ⟨rfl, rfl⟩ | ⟨c, hop, rfl⟩ | ⟨j, c, hop, rfl⟩ | ⟨c, rfl, rfl⟩ | ⟨rfl, rfl⟩
  · exact ⟨rfl, .inl ⟨nofun, rfl, rfl⟩⟩
  · exact ⟨rfl, .inl ⟨by rintro rfl; exact absurd hop (by decide), rfl, rfl⟩⟩
  · exact ⟨rfl, .inl ⟨by rintro rfl; exact absurd hop (by decide), rfl, rfl⟩⟩
  · exact ⟨rfl, .inl ⟨nofun, rfl, rfl⟩⟩
  · exact ⟨rfl, .inr ⟨rfl, rfl, rfl⟩⟩

/-- No command touches the host's words or the output stream. -/
theorem exec_hostWords_emitted {i : Instr} {s t : State} (h : exec i s = .next t) :
    t.hostWords = s.hostWords ∧ t.emitted = s.emitted := by
  rcases exec_next_cases h with ⟨_, rfl⟩ | ⟨_, _, rfl⟩ | ⟨_, _, _, rfl⟩ | ⟨_, _, rfl⟩ | ⟨_, rfl⟩ <;> exact ⟨rfl, rfl⟩

/-- A command that changes `RES` is ADD, LERP, FADE or RDPIX (10_state.md R22). -/
theorem opcode_of_exec_res_ne {i : Instr} {s t : State} (h : exec i s = .next t) (hne : t.res ≠ s.res) :
    i.opcode ∈ [1#8, 2#8, 3#8, 5#8] := by
  rcases exec_next_cases h with ⟨_, rfl⟩ | ⟨_, hop, _⟩ | ⟨_, _, _, rfl⟩ | ⟨_, _, rfl⟩ | ⟨_, rfl⟩
  · exact absurd rfl hne
  · exact hop
  · exact absurd rfl hne
  · exact absurd rfl hne
  · exact absurd rfl hne

/-- A command that changes the frame buffer is WRPIX, STRES or FILL (10_state.md T-R21). -/
theorem opcode_of_exec_fb_ne {i : Instr} {s t : State} (h : exec i s = .next t) (hne : t.fb ≠ s.fb) :
    i.opcode ∈ [4#8, 6#8, 7#8] := by
  rcases exec_next_cases h with ⟨_, rfl⟩ | ⟨_, _, rfl⟩ | ⟨_, _, hop, _⟩ | ⟨_, rfl, _⟩ | ⟨_, rfl⟩
  · exact absurd rfl hne
  · exact absurd rfl hne
  · simp only [List.mem_cons, List.not_mem_nil] at hop ⊢
    tauto
  · simp [Instr.opcode]
  · exact absurd rfl hne

/-- Every command completes. -/
theorem exec_completes (i : Instr) (s : State) : ∃ t, exec i s = .next t := by
  rcases exec_cases i s with ⟨_, e⟩ | ⟨_, _, e⟩ | ⟨_, _, _, e⟩ | ⟨_, _, e⟩ | ⟨_, e⟩ <;> exact ⟨_, e⟩

theorem commandStep_completes (w : CommandWord) (s : State) : ∃ t, commandStep w s = .next t := by
  rcases commandStep_cases w s with ⟨i, _, e⟩ | ⟨_, _, e⟩
  · rw [e]; exact exec_completes i s
  · exact ⟨_, e⟩

/-! ### When a transfer happens -/

theorem cmdReady_iff (s : State) : cmdReady s = true ↔ s.mode = .idle ∧ (pinsNow s).rst = false := by
  simp [cmdReady]

theorem txValid_iff (s : State) : txValid s = true ↔ s.mode = .busy ∧ (pinsNow s).rst = false := by
  simp [txValid]

theorem byteTransfer_iff (s : State) :
    byteTransfer s = true ↔ s.mode = .busy ∧ (pinsNow s).rst = false ∧ (pinsNow s).txReady = true := by
  simp [byteTransfer, txValid_iff, txReady, and_assoc]

theorem commandTransfer_iff (s : State) :
    commandTransfer s = true ↔ s.hostWords ≠ [] ∧ s.mode = .idle ∧ (pinsNow s).rst = false := by
  simp [commandTransfer, cmdReady_iff, cmdValid]

theorem presents_iff (s : State) (w : CommandWord) :
    Presents s w ↔ (∃ ws, s.hostWords = w :: ws) ∧ s.mode = .idle ∧ (pinsNow s).rst = false := by
  simp [Presents, List.head?_eq_some_iff]

/-- At most one word is on the command port. -/
theorem Presents.unique {s : State} {w w' : CommandWord} (h : Presents s w) (h' : Presents s w') : w = w' :=
  Option.some.inj (h.1.symm.trans h'.1)

/-- A step at a command transfer is the command step on the presented word (10_state.md R30). -/
theorem step_of_presents {s : State} {w : CommandWord} (h : Presents s w) :
    step s = commandStep w (takeWord (advancePins s)) := by
  obtain ⟨⟨ws, hw⟩, hm, hr⟩ := (presents_iff s w).1 h
  rcases step_cases s with ⟨hr', _⟩ | ⟨_, ⟨_, hw', _⟩ | ⟨w', ws', _, hw', e⟩ | ⟨hm', _⟩ | ⟨hm', _⟩ | ⟨hm', _⟩⟩
  · simp [hr] at hr'
  · simp [hw] at hw'
  · obtain ⟨rfl, rfl⟩ := List.cons.inj (hw.symm.trans hw')
    exact e
  · simp [hm] at hm'
  · simp [hm] at hm'
  · simp [hm] at hm'

/-! ### What a step does to the words, the stream and the data registers -/

/-- A step consumes the first word exactly at a command transfer. -/
theorem step_hostWords {s t : State} (h : step s = .next t) :
    t.hostWords = if commandTransfer s then s.hostWords.tail else s.hostWords := by
  rcases step_next_cases h with ⟨hr, rfl⟩ | ⟨hr, ⟨rfl, hwait⟩ | ⟨w, ws, i, hm, hw, _, he⟩ | ⟨w, ws, e, hm, hw, _, rfl⟩ |
    ⟨hm, _, _, rfl⟩ | ⟨hm, _, _, rfl⟩⟩
  · rw [if_neg (by simp [commandTransfer_iff, hr])]; simp
  · rw [if_neg (by rcases hwait with ⟨_, hw⟩ | ⟨hm, _⟩ | hm <;> simp [commandTransfer_iff, *])]; rfl
  · rw [if_pos ((commandTransfer_iff s).2 ⟨by simp [hw], hm, hr⟩)]
    exact (exec_hostWords_emitted he).1
  · rw [if_pos ((commandTransfer_iff s).2 ⟨by simp [hw], hm, hr⟩)]; rfl
  · rw [if_neg (by simp [commandTransfer_iff, hm])]; rfl
  · rw [if_neg (by simp [commandTransfer_iff, hm])]; rfl

/-- Without reset a step hands a byte to the sink exactly at a byte transfer. -/
theorem step_emitted {s t : State} (h : step s = .next t) (hr : (pinsNow s).rst = false) :
    t.emitted = if byteTransfer s then frameByte s.fb s.pos.toNat :: s.emitted else s.emitted := by
  rcases step_next_cases h with ⟨hr', _⟩ | ⟨_, ⟨rfl, hwait⟩ | ⟨w, ws, i, hm, _, _, he⟩ | ⟨w, ws, e, hm, _, _, rfl⟩ |
    ⟨hm, ht, _, rfl⟩ | ⟨hm, ht, _, rfl⟩⟩
  · simp [hr] at hr'
  · rw [if_neg (by rcases hwait with ⟨hm, _⟩ | ⟨_, ht⟩ | hm <;> simp [byteTransfer_iff, *])]; rfl
  · rw [if_neg (by simp [byteTransfer_iff, hm])]
    exact (exec_hostWords_emitted he).2
  · rw [if_neg (by simp [byteTransfer_iff, hm])]; rfl
  · rw [if_pos ((byteTransfer_iff s).2 ⟨hm, hr, ht⟩)]; rfl
  · rw [if_pos ((byteTransfer_iff s).2 ⟨hm, hr, ht⟩)]; rfl

/-- While a byte is offered, `tx_data` is the byte of the image at `POS` (10_state.md R31). -/
theorem txData_of_txValid {s : State} (h : txValid s = true) : txData s = frameByte s.fb s.pos.toNat := if_pos h

/-- Without reset a step appends the byte on offer to the stream exactly at a byte transfer. -/
theorem step_stream {s t : State} (h : step s = .next t) (hr : (pinsNow s).rst = false) :
    stream t = if byteTransfer s then stream s ++ [txData s] else stream s := by
  unfold stream
  rw [step_emitted h hr]
  by_cases hb : byteTransfer s = true
  · obtain ⟨hm, _⟩ := (byteTransfer_iff s).1 hb
    rw [if_pos hb, if_pos hb, List.reverse_cons, txData_of_txValid ((txValid_iff s).2 ⟨hm, hr⟩)]
  · rw [if_neg hb, if_neg hb]

/-- Without reset the data registers `RES` and `FB` move only in a command step. -/
theorem step_data_cases {s t : State} (h : step s = .next t) (hr : (pinsNow s).rst = false) :
    (t.res = s.res ∧ t.fb = s.fb) ∨
    ∃ w i, Presents s w ∧ decode w = .ok i ∧ exec i (takeWord (advancePins s)) = .next t := by
  rcases step_next_cases h with ⟨hr', _⟩ | ⟨_, ⟨rfl, _⟩ | ⟨w, ws, i, hm, hw, hd, he⟩ | ⟨_, _, _, _, _, _, rfl⟩ |
    ⟨_, _, _, rfl⟩ | ⟨_, _, _, rfl⟩⟩
  · simp [hr] at hr'
  · exact .inl ⟨rfl, rfl⟩
  · exact .inr ⟨w, i, (presents_iff s w).2 ⟨⟨ws, hw⟩, hm, hr⟩, hd, he⟩
  · exact .inl ⟨rfl, rfl⟩
  · exact .inl ⟨rfl, rfl⟩
  · exact .inl ⟨rfl, rfl⟩

/-! ### The transitions of MODE -/

/-- An ENCODE word is taken in the next step. -/
def TakesEncode (s : State) : Prop := ∃ w, Presents s w ∧ decode w = .ok .encode

/-- A word that decodes to no command is taken in the next step. -/
def TakesIllegal (s : State) : Prop := ∃ w e, Presents s w ∧ decode w = .error e

/-- The byte at position 1536 is taken in the next step, unless reset is asserted. -/
def TakesLastByte (s : State) : Prop := s.mode = .busy ∧ s.pos.toNat = 1536 ∧ (pinsNow s).txReady = true

theorem TakesEncode.idle {s : State} (h : TakesEncode s) : s.mode = .idle := by
  obtain ⟨w, ⟨_, hm, _⟩, _⟩ := h
  exact hm

theorem TakesIllegal.idle {s : State} (h : TakesIllegal s) : s.mode = .idle := by
  obtain ⟨w, e, ⟨_, hm, _⟩, _⟩ := h
  exact hm

/-- A taken word is ENCODE or illegal exactly if it decodes so. -/
theorem takesEncode_iff_of_presents {s : State} {w : CommandWord} (h : Presents s w) :
    TakesEncode s ↔ decode w = .ok .encode :=
  ⟨fun ⟨_, hw, hd⟩ => h.unique hw ▸ hd, fun hd => ⟨w, h, hd⟩⟩

theorem takesIllegal_iff_of_presents {s : State} {w : CommandWord} (h : Presents s w) :
    TakesIllegal s ↔ ∃ e, decode w = .error e :=
  ⟨fun ⟨_, e, hw, hd⟩ => ⟨e, h.unique hw ▸ hd⟩, fun ⟨e, hd⟩ => ⟨w, e, h, hd⟩⟩

/-- No word is taken where none is presented to an idle block. -/
theorem not_takes_of_no_word {s : State} (h : s.mode = .idle → s.hostWords = []) :
    ¬TakesEncode s ∧ ¬TakesIllegal s := by
  have hno : ∀ w, ¬Presents s w := fun w hw => by simpa [h hw.2.1] using hw.1
  exact ⟨fun ⟨w, hw, _⟩ => hno w hw, fun ⟨w, _, hw, _⟩ => hno w hw⟩

/-- What a step without reset does to `MODE`: one of the three transitions, or nothing (10_state.md R26). -/
theorem step_mode_cases {s t : State} (h : step s = .next t) (hr : (pinsNow s).rst = false) :
    (TakesEncode s ∧ ¬TakesIllegal s ∧ t.mode = .busy) ∨
    (TakesIllegal s ∧ ¬TakesEncode s ∧ t.mode = .fault) ∨
    (TakesLastByte s ∧ t.mode = .idle) ∨
    (¬TakesEncode s ∧ ¬TakesIllegal s ∧ ¬TakesLastByte s ∧ t.mode = s.mode) := by
  rcases step_next_cases h with ⟨hr', _⟩ | ⟨_, ⟨rfl, hwait⟩ | ⟨w, ws, i, hm, hw, hd, he⟩ | ⟨w, ws, e, hm, hw, hd, rfl⟩ |
    ⟨hm, _, hp, rfl⟩ | ⟨hm, ht, hp, rfl⟩⟩
  · simp [hr] at hr'
  · obtain ⟨hne, hni⟩ : ¬TakesEncode s ∧ ¬TakesIllegal s :=
      not_takes_of_no_word (by rcases hwait with ⟨_, hw⟩ | ⟨hm, _⟩ | hm <;> simp [*])
    have hnl : ¬TakesLastByte s := by rcases hwait with ⟨hm, _⟩ | ⟨_, ht⟩ | hm <;> simp [TakesLastByte, *]
    exact .inr (.inr (.inr ⟨hne, hni, hnl, rfl⟩))
  · have hpr : Presents s w := (presents_iff s w).2 ⟨⟨ws, hw⟩, hm, hr⟩
    have hni : ¬TakesIllegal s := by simp [takesIllegal_iff_of_presents hpr, hd]
    obtain ⟨_, ⟨hi, htm, _⟩ | ⟨rfl, htm, _⟩⟩ := exec_control he
    · have hne : ¬TakesEncode s := by simpa [takesEncode_iff_of_presents hpr, hd] using hi
      exact .inr (.inr (.inr ⟨hne, hni, by simp [TakesLastByte, hm], htm⟩))
    · exact .inl ⟨⟨w, hpr, hd⟩, hni, htm⟩
  · have hpr : Presents s w := (presents_iff s w).2 ⟨⟨ws, hw⟩, hm, hr⟩
    exact .inr (.inl ⟨⟨w, e, hpr, hd⟩, by simp [takesEncode_iff_of_presents hpr, hd], rfl⟩)
  · obtain ⟨hne, hni⟩ : ¬TakesEncode s ∧ ¬TakesIllegal s := not_takes_of_no_word (by simp [hm])
    exact .inr (.inr (.inr ⟨hne, hni, fun ⟨_, hp', _⟩ => by omega, rfl⟩))
  · exact .inr (.inr (.inl ⟨⟨hm, hp, ht⟩, rfl⟩))

/-! ### The invariants of the state -/

/-- The invariants speak of `POS`, `MODE` and `CAUSE` only. -/
theorem wf_of_control_eq {s t : State} (h : Wf s) (hp : t.pos = s.pos) (hm : t.mode = s.mode) (hc : t.cause = s.cause) :
    Wf t := by
  simpa only [Wf, hp, hm, hc] using h

theorem rejectCause_ne_none (e : DecodeReject) : rejectCause e ≠ .none := by
  cases e <;> decide

theorem Wf.cause_of_not_fault {s : State} (h : Wf s) (hm : s.mode ≠ .fault) : s.cause = .none := by
  obtain ⟨_, _, hc⟩ := h
  exact not_not.1 fun hne => hm (hc.1 hne)

theorem Wf.pos_of_not_busy {s : State} (h : Wf s) (hm : s.mode ≠ .busy) : s.pos = 0#11 := by
  obtain ⟨_, hp, _⟩ := h
  exact hp hm

/-- With no cause and the position at 0, IDLE and BUSY meet the invariants. -/
theorem wf_of_frame_edge {s : State} (hp : s.pos = 0#11) (hm : s.mode ≠ .fault) (hc : s.cause = .none) : Wf s := by
  simp [Wf, hp, hm, hc]

/-- A command in IDLE keeps the invariants. -/
theorem wf_exec {i : Instr} {s t : State} (hs : Wf s) (hm : s.mode = .idle) (h : exec i s = .next t) : Wf t := by
  obtain ⟨hc, ⟨_, htm, htp⟩ | ⟨_, htm, htp⟩⟩ := exec_control h
  · exact wf_of_control_eq hs htp htm hc
  · exact wf_of_frame_edge htp (by simp [htm]) (hc.trans (hs.cause_of_not_fault (by simp [hm])))

/-- Taking the exception in IDLE keeps the invariants. -/
theorem wf_raiseIllegal {s : State} (e : DecodeReject) (hs : Wf s) (hm : s.mode = .idle) :
    Wf (raiseIllegal (rejectCause e) s) := by
  have hp : s.pos = 0#11 := hs.pos_of_not_busy (by simp [hm])
  simp [Wf, hp, rejectCause_ne_none]

/-- A position inside the frame does not wrap when it moves on. -/
theorem toNat_pos_add_one {p : Position} (h : p.toNat < 1536) : (p + 1#11).toNat = p.toNat + 1 := by
  bv_omega

/-- Moving on in mid-frame keeps the invariants. -/
theorem wf_nextPosition {s : State} (hs : Wf s) (hm : s.mode = .busy) (hp : s.pos.toNat < 1536) :
    Wf (nextPosition s) := by
  have hc : s.cause = .none := hs.cause_of_not_fault (by simp [hm])
  have hnext : (nextPosition s).pos.toNat ≤ 1536 := by
    rw [nextPosition_pos, toNat_pos_add_one hp]
    omega
  exact ⟨hnext, by simp [hm], by simp [hm, hc]⟩

/-! ### The frame image byte by byte -/

/-- Reading a concatenation of blocks of one length `n`: element `q` of block `i`. -/
theorem getElem?_flatMap_of_length {α β : Type} {f : α → List β} {n : Nat} (hf : ∀ x, (f x).length = n)
    (l : List α) (i q : Nat) (hq : q < n) : (l.flatMap f)[n * i + q]? = l[i]?.bind fun x => (f x)[q]? := by
  induction l generalizing i with
  | nil => simp
  | cons x xs ih =>
    rw [List.flatMap_cons]
    cases i with
    | zero => simp [List.getElem?_append_left, hf, hq]
    | succ i =>
      have hle : (f x).length ≤ n * (i + 1) + q := by rw [hf, Nat.mul_succ]; omega
      have hsub : n * (i + 1) + q - (f x).length = n * i + q := by rw [hf, Nat.mul_succ]; omega
      rw [List.getElem?_append_right hle, hsub, ih i]
      simp

theorem getElem?_encodeChannel (v : Channel) {j : Nat} (hj : j < 8) :
    (encodeChannel v)[j]? = some (encodeBit (v.getLsbD (7 - j))) := by
  simp [encodeChannel, hj]

/-- Element `q` of a pixel stands for bit `23 - q` of its colour word (42_frame_encoder.md R163). -/
theorem getElem?_encodePixel (c : Color) {q : Nat} (hq : q < 24) :
    (encodePixel c)[q]? = some (encodeBit (c.getLsbD (23 - q))) := by
  unfold encodePixel
  by_cases h8 : q < 8
  · have e : 16 + (7 - q) = 23 - q := by omega
    rw [List.append_assoc, List.getElem?_append_left (by simpa using h8), getElem?_encodeChannel _ h8,
      (getLsbD_channels c (7 - q) (by omega)).1, e]
  · by_cases h16 : q < 16
    · have e : 8 + (7 - (q - 8)) = 23 - q := by omega
      rw [List.getElem?_append_left (by simpa using h16), List.getElem?_append_right (by simpa using h8),
        length_encodeChannel, getElem?_encodeChannel _ (by omega),
        (getLsbD_channels c (7 - (q - 8)) (by omega)).2.1, e]
    · have e : 7 - (q - 16) = 23 - q := by omega
      rw [List.getElem?_append_right (by simpa using h16), List.length_append, length_encodeChannel,
        length_encodeChannel, getElem?_encodeChannel _ (by omega), (getLsbD_channels c _ (by omega)).2.2, e]

/-- `FrameByte(F, p)` is element `p` of the image of `F` (42_frame_encoder.md R165). -/
theorem getElem?_encodeFrame (f : FrameBuffer) {p : Nat} (hp : p ≤ 1536) :
    (encodeFrame f)[p]? = some (frameByte f p) := by
  have hlen : (f.toList.flatMap encodePixel).length = 1536 := by simp
  unfold encodeFrame frameByte
  by_cases h : p < 1536
  · have hblock := getElem?_flatMap_of_length length_encodePixel f.toList (p / 24) (p % 24) (Nat.mod_lt _ (by decide))
    rw [Nat.div_add_mod] at hblock
    have hi : p / 24 < f.toList.length := by simp; omega
    rw [List.getElem?_append_left (by omega), hblock, dif_pos h, List.getElem?_eq_getElem hi, Option.bind_some,
      getElem?_encodePixel _ (Nat.mod_lt _ (by decide)), Vector.getElem_toList]
  · obtain rfl : p = 1536 := by omega
    rw [dif_neg h, List.getElem?_append_right (by omega), hlen]
    rfl

/-! ### The status view -/

theorem status_busy_bit (s : State) : (status s).getLsbD 0 = busyOut s := by
  simp only [status, BitVec.getLsbD_append]
  simp

theorem status_fault_bit (s : State) : (status s).getLsbD 1 = faultOut s := by
  simp only [status, BitVec.getLsbD_append]
  simp

theorem status_cause_bits (s : State) : (status s).extractLsb' 2 2 = causeOut s := by
  apply BitVec.eq_of_getLsbD_eq
  intro k hk
  have hidx : 2 + k - 1 - 1 = k := by omega
  simp (disch := omega) only [status, BitVec.getLsbD_extractLsb', BitVec.getLsbD_append, if_neg, hk, hidx, decide_true,
    Bool.true_and]

/-! ### The obligations -/

/-- Settles O54: by the cases of a step. -/
theorem stepKeepsStateInvariants : Obligations.StepKeepsStateInvariants := by
  intro s t hs h
  have hu : Wf (takeWord (advancePins s)) := wf_of_control_eq hs rfl rfl rfl
  have hb : ∀ b, Wf (emitByte b (advancePins s)) := fun _ => wf_of_control_eq hs rfl rfl rfl
  rcases step_next_cases h with ⟨_, rfl⟩ | ⟨_, ⟨rfl, _⟩ | ⟨w, ws, i, hm, _, _, he⟩ | ⟨w, ws, e, hm, _, _, rfl⟩ |
    ⟨hm, _, hp, rfl⟩ | ⟨hm, _, _, rfl⟩⟩
  · exact wf_of_frame_edge rfl (by simp) rfl
  · exact wf_of_control_eq hs rfl rfl rfl
  · exact wf_exec hu hm he
  · exact wf_raiseIllegal e hu hm
  · exact wf_nextPosition (hb _) hm hp
  · exact wf_of_frame_edge rfl (by simp) (hs.cause_of_not_fault (by simp [hm]))

/-- Settles O27: the data registers move only in a command step, and of the commands only these write `RES`. -/
theorem resultWrittenByFourCommands : Obligations.ResultWrittenByFourCommands := by
  intro s t h hr hne
  rcases step_data_cases h hr with ⟨hres, _⟩ | ⟨w, i, hw, hd, he⟩
  · exact absurd hres hne
  · exact ⟨w, i, hw, hd, opcode_of_exec_res_ne he hne⟩

/-- Settles O28: the data registers move only in a command step, and of the commands only these write the buffer. -/
theorem frameBufferWrittenByThreeCommands : Obligations.FrameBufferWrittenByThreeCommands := by
  intro s t h hr hne
  rcases step_data_cases h hr with ⟨_, hfb⟩ | ⟨w, i, hw, hd, he⟩
  · exact absurd hfb hne
  · exact ⟨w, i, hw, hd, opcode_of_exec_fb_ne he hne⟩

/-- Settles O29: by the cases of a step; ENCODE clears a position that the invariants already hold at 0. -/
theorem positionChangesOnlyByEmission : Obligations.PositionChangesOnlyByEmission := by
  intro s t hs h hne
  rcases step_next_cases h with ⟨hr, rfl⟩ | ⟨hr, ⟨rfl, _⟩ | ⟨w, ws, i, hm, _, _, he⟩ | ⟨_, _, _, _, _, _, rfl⟩ |
    ⟨hm, ht, hp, rfl⟩ | ⟨hm, ht, hp, rfl⟩⟩
  · exact .inl ⟨hr, rfl⟩
  · exact absurd rfl hne
  · obtain ⟨_, ⟨_, _, htp⟩ | ⟨_, _, htp⟩⟩ := exec_control he
    · exact absurd htp hne
    · exact absurd (htp.trans (hs.pos_of_not_busy (by simp [hm])).symm) hne
  · exact absurd rfl hne
  · exact .inr (.inl ⟨(byteTransfer_iff s).2 ⟨hm, hr, ht⟩, hp, toNat_pos_add_one hp⟩)
  · exact .inr (.inr ⟨(byteTransfer_iff s).2 ⟨hm, hr, ht⟩, hp, rfl⟩)

/-- Settles O45: the transitions are those of `step_mode_cases`, which exclude each other. -/
theorem modeTransitionsAreTheSpecs : Obligations.ModeTransitionsAreTheSpecs := by
  refine ⟨⟨rfl, rfl, rfl, fun m => by cases m <;> decide⟩, fun s t h => ⟨fun hr => ?_, fun hr => ?_⟩⟩
  · rcases step_next_cases h with ⟨_, rfl⟩ | ⟨hr', _⟩
    · rfl
    · simp [hr] at hr'
  · refine ⟨by simp [cmdReady_iff, hr], by simp [txValid_iff, hr], ?_⟩
    change (t.mode ≠ s.mode ↔ TakesEncode s ∨ TakesIllegal s ∨ TakesLastByte s) ∧
      (TakesEncode s → t.mode = .busy) ∧ (TakesIllegal s → t.mode = .fault) ∧
      (s.mode = .busy → t.mode = .busy ∨ t.mode = .idle)
    rcases step_mode_cases h hr with ⟨he, hni, htm⟩ | ⟨hi, hne, htm⟩ | ⟨hl, htm⟩ | ⟨hne, hni, hnl, htm⟩
    · simp [he, hni, htm, he.idle]
    · simp [hi, hne, htm, hi.idle]
    · obtain ⟨hne, hni⟩ : ¬TakesEncode s ∧ ¬TakesIllegal s := not_takes_of_no_word (by simp [hl.1])
      simp [hne, hni, hl, htm, hl.1]
    · simp +contextual [hne, hni, hnl, htm]

/-- Settles O49: from what a step does to the words and to the stream. -/
theorem transfersTriggerSteps : Obligations.TransfersTriggerSteps := by
  intro s t h
  refine ⟨fun hr => ⟨?_, ?_, fun hb => by simp [step_stream h hr, hb]⟩, ?_, fun hr => ?_⟩
  · rw [step_hostWords h]
    cases hc : commandTransfer s
    · simp
    · obtain ⟨hw, _⟩ := (commandTransfer_iff s).1 hc
      obtain ⟨w, ws, e⟩ := List.exists_cons_of_ne_nil hw
      simp [e]
  · cases hb : byteTransfer s <;> simp [step_stream h hr, hb]
  · rintro ⟨hc, hb⟩
    obtain ⟨_, hidle, _⟩ := (commandTransfer_iff s).1 hc
    obtain ⟨hbusy, _⟩ := (byteTransfer_iff s).1 hb
    simp [hidle] at hbusy
  · constructor
    · simp [← Bool.not_eq_true, commandTransfer_iff, hr]
    · simp [← Bool.not_eq_true, byteTransfer_iff, hr]

/-- Settles O51: output by output; the byte on offer is the image's by its closed form. -/
theorem outputsShowState : Obligations.OutputsShowState := by
  intro s hr
  refine ⟨by rw [status_busy_bit]; exact beq_iff_eq, by rw [status_fault_bit]; exact beq_iff_eq, status_cause_bits s, rfl,
    by simp [cmdReady_iff, hr], by simp [txValid_iff, hr], fun hm hp => ?_, fun hm => ?_⟩
  · rw [txData_of_txValid ((txValid_iff s).2 ⟨hm, hr⟩), getElem?_encodeFrame s.fb hp]
  · rw [txData, if_neg (by simp [txValid_iff, hm])]

/-- Settles O57: every case of a step answers a next state but the emit step outside the frame. -/
theorem stopsExactlyOutsideFrame : Obligations.StopsExactlyOutsideFrame := by
  intro s
  constructor
  · intro hstop
    rcases step_cases s with
      ⟨_, e⟩ | ⟨hr, ⟨_, _, e⟩ | ⟨w, _, _, _, e⟩ | ⟨hm, ht, e⟩ | ⟨_, _, e⟩ | ⟨_, e⟩⟩
    · exact absurd e (hstop _)
    · exact absurd e (hstop _)
    · obtain ⟨t, ht⟩ := commandStep_completes w (takeWord (advancePins s))
      exact absurd (e.trans ht) (hstop t)
    · rcases emitStep_cases (advancePins s) with ⟨_, e'⟩ | ⟨_, e'⟩ | ⟨hp, _⟩
      · exact absurd (e.trans e') (hstop _)
      · exact absurd (e.trans e') (hstop _)
      · exact ⟨hr, hm, ht, hp⟩
    · exact absurd e (hstop _)
    · exact absurd e (hstop _)
  · rintro ⟨hr, hm, ht, hp⟩ t h
    rcases step_next_cases h with ⟨hr', _⟩ | ⟨_, ⟨_, hwait⟩ | ⟨_, _, _, hm', _⟩ | ⟨_, _, _, hm', _⟩ | ⟨_, _, hp', _⟩ |
      ⟨_, _, hp', _⟩⟩
    · simp [hr] at hr'
    · simp [hm, ht] at hwait
    · simp [hm] at hm'
    · simp [hm] at hm'
    · omega
    · omega

/-- Settles O1: a step at a command transfer is the command step, which performs the decoded command. -/
theorem stepRunsDecodedCommand : Obligations.StepRunsDecodedCommand := by
  intro s w i hw hd
  rw [step_of_presents hw]
  rcases commandStep_cases w (takeWord (advancePins s)) with ⟨j, hj, e⟩ | ⟨r, hr, _⟩
  · obtain rfl : i = j := Except.ok.inj (hd.symm.trans hj)
    exact e
  · simp [hd] at hr

/-- Settles O55: the fields of the reset state; its stream is that of no frame. -/
theorem resetStateMeetsInvariants : Obligations.ResetStateMeetsInvariants :=
  ⟨wf_of_frame_edge rfl nofun rfl, ⟨[], rfl⟩, rfl, rfl, rfl, rfl, readPixel_reset⟩

end Sys2Proof.Machine

/-! Proofs of the memory family (20_memory.md): the position map of the frame image and the order of the words. -/

namespace Sys2Proof.Machine

/-! ### Positions in the frame image -/

/-- Pixel `i` occupies the 24 positions from `24 i` on, its most significant bit first (20_memory.md R52). -/
theorem getElem?_encodeFrame_pixel (f : FrameBuffer) (i : Fin 64) {q : Nat} (hq : q < 24) :
    (encodeFrame f)[24 * i.val + q]? = some (encodeBit (f[i].getLsbD (23 - q))) := by
  have hp : 24 * i.val + q < 1536 := by omega
  have hdiv : (24 * i.val + q) / 24 = i.val := by omega
  have hmod : (24 * i.val + q) % 24 = q := by omega
  rw [getElem?_encodeFrame f hp.le, frameByte, dif_pos hp]
  simp only [hdiv, hmod, Fin.getElem_fin]

/-- Settles O33: channel `ch` starts at offset `8 ch` of its pixel, whose offsets run down the bits of the colour word. -/
theorem positionMapOfFrameImage : Obligations.PositionMapOfFrameImage := by
  intro f i ch k hk
  have hq : 8 * ch.val + (7 - k) < 24 := by omega
  obtain ⟨hred, hgreen, hblue⟩ := getLsbD_channels f[i] k (by omega)
  refine ⟨?_, getElem?_encodeFrame f le_rfl⟩
  have hbit : 23 - (8 * ch.val + (7 - k)) = 16 - 8 * ch.val + k := by omega
  rw [Nat.add_assoc, getElem?_encodeFrame_pixel f i hq, hbit]
  match ch with
  | 0 => exact congrArg (some ∘ encodeBit) hred.symm
  | 1 => exact congrArg (some ∘ encodeBit) hgreen.symm
  | 2 => exact congrArg (some ∘ encodeBit) ((congrArg f[i].getLsbD (Nat.zero_add k)).trans hblue.symm)

/-! ### The words and the pin schedule -/

/-- No command touches the pin schedule. -/
theorem exec_pins {i : Instr} {s t : State} (h : exec i s = .next t) : t.pins = s.pins := by
  rcases exec_next_cases h with ⟨_, rfl⟩ | ⟨_, _, rfl⟩ | ⟨_, _, _, rfl⟩ | ⟨_, _, rfl⟩ | ⟨_, rfl⟩ <;> rfl

/-- Every step uses up one entry of the pin schedule (notes/assumptions/4.md). -/
theorem step_pins {s t : State} (h : step s = .next t) : t.pins = s.pins.tail := by
  rcases step_next_cases h with ⟨_, rfl⟩ | ⟨_, ⟨rfl, _⟩ | ⟨_, _, _, _, _, _, he⟩ | ⟨_, _, _, _, _, _, rfl⟩ |
    ⟨_, _, _, rfl⟩ | ⟨_, _, _, rfl⟩⟩
  · simp
  · rfl
  · exact exec_pins he
  · rfl
  · rfl
  · rfl

/-- Settles O50: a step drops the first word exactly at a command transfer, and that word is then the presented one. -/
theorem wordsTakenInOrder : Obligations.WordsTakenInOrder := by
  intro s t h
  have hwords := step_hostWords h
  refine ⟨step_pins h, ?_⟩
  by_cases hc : commandTransfer s = true
  · obtain ⟨hne, hm, hr⟩ := (commandTransfer_iff s).1 hc
    obtain ⟨w, ws, hw⟩ := List.exists_cons_of_ne_nil hne
    refine .inr ⟨w, (presents_iff s w).2 ⟨⟨ws, hw⟩, hm, hr⟩, ?_⟩
    rw [hwords, if_pos hc, hw, List.tail_cons]
  · exact .inl (hwords.trans (if_neg hc))

end Sys2Proof.Machine


/-! Proofs of the encoding family (30_encoding.md). First a word as its seven fields, then what the masks select, the
decoder and the encoder, the assembler; then the obligations. -/

namespace Sys2Proof

/-! ### A word as its fields -/

/-- A word is its seven fields, most significant first (30_encoding.md R81). -/
theorem append_fields (w : CommandWord) :
    fieldOp w ++ fieldA w ++ fieldRsv0 w ++ fieldIdx w ++ fieldB w ++ fieldRsv1 w ++ fieldR w = w := by
  simp only [fieldOp, fieldA, fieldRsv0, fieldIdx, fieldB, fieldRsv1, fieldR,
    BitVec.extractLsb'_append_extractLsb'_eq_extractLsb', BitVec.extractLsb'_eq_self]

/-- Words with clear reserved bits are packed from their operand fields. -/
theorem packWord_fields {w : CommandWord} (h0 : fieldRsv0 w = 0#2) (h1 : fieldRsv1 w = 0#15) :
    packWord (fieldOp w) (fieldA w) (fieldIdx w) (fieldB w) (fieldR w) = w := by
  rw [packWord, ← h0, ← h1, append_fields]

@[simp] theorem fieldOp_and (w m : CommandWord) : fieldOp (w &&& m) = fieldOp w &&& fieldOp m :=
  BitVec.extractLsb'_and
@[simp] theorem fieldA_and (w m : CommandWord) : fieldA (w &&& m) = fieldA w &&& fieldA m := BitVec.extractLsb'_and
@[simp] theorem fieldRsv0_and (w m : CommandWord) : fieldRsv0 (w &&& m) = fieldRsv0 w &&& fieldRsv0 m :=
  BitVec.extractLsb'_and
@[simp] theorem fieldIdx_and (w m : CommandWord) : fieldIdx (w &&& m) = fieldIdx w &&& fieldIdx m :=
  BitVec.extractLsb'_and
@[simp] theorem fieldB_and (w m : CommandWord) : fieldB (w &&& m) = fieldB w &&& fieldB m := BitVec.extractLsb'_and
@[simp] theorem fieldRsv1_and (w m : CommandWord) : fieldRsv1 (w &&& m) = fieldRsv1 w &&& fieldRsv1 m :=
  BitVec.extractLsb'_and
@[simp] theorem fieldR_and (w m : CommandWord) : fieldR (w &&& m) = fieldR w &&& fieldR m := BitVec.extractLsb'_and

theorem word_ext_iff {w v : CommandWord} : w = v ↔
    fieldOp w = fieldOp v ∧ fieldA w = fieldA v ∧ fieldRsv0 w = fieldRsv0 v ∧ fieldIdx w = fieldIdx v ∧
      fieldB w = fieldB v ∧ fieldRsv1 w = fieldRsv1 v ∧ fieldR w = fieldR v := by
  refine ⟨fun h => by simp [h], fun ⟨hop, ha, h0, hidx, hb, h1, hr⟩ => ?_⟩
  rw [← append_fields w, hop, ha, h0, hidx, hb, h1, hr, append_fields]

/-- A mask with clear reserved bits selects field by field. -/
theorem and_packWord (w : CommandWord) (op : BitVec 8) (a : Color) (idx : PixelIndex) (b : Color) (r : Ratio) :
    w &&& packWord op a idx b r =
      packWord (fieldOp w &&& op) (fieldA w &&& a) (fieldIdx w &&& idx) (fieldB w &&& b) (fieldR w &&& r) := by
  have h := packWord_fields (w := w &&& packWord op a idx b r) (by simp) (by simp)
  simpa using h.symm

/-- A mask of reserved bits finds nothing exactly if it finds nothing in the two reserved fields. -/
theorem and_eq_zero_iff_of_reserved (w : CommandWord) {m : CommandWord}
    (hm : fieldOp m = 0#8 ∧ fieldA m = 0#24 ∧ fieldIdx m = 0#6 ∧ fieldB m = 0#24 ∧ fieldR m = 0#17) :
    w &&& m = 0#96 ↔ fieldRsv0 w &&& fieldRsv0 m = 0#2 ∧ fieldRsv1 w &&& fieldRsv1 m = 0#15 := by
  have hzero : 0#96 = packWord 0#8 0#24 0#6 0#24 0#17 := by decide
  simp [word_ext_iff, hzero, hm]

/-- The opcode number as the masks read it and as the decoder reads it. -/
theorem toNat_shiftRight_88 (w : CommandWord) : (w >>> 88).toNat = (fieldOp w).toNat := by
  have hlt : w.toNat >>> 88 < 2 ^ 8 := by
    rw [Nat.shiftRight_eq_div_pow]; omega
  rw [fieldOp, BitVec.extractLsb'_toNat, BitVec.toNat_ushiftRight, Nat.mod_eq_of_lt hlt]

/-! ### What the masks select -/

section
open CommandWord
open BitVec (allOnes reduceAllOnes)

/-! The fields of each format, one equation per opcode (30_encoding.md R85). -/

@[simp] theorem usedMask_nop : usedMask 0 = packWord (allOnes 8) 0#24 0#6 0#24 0#17 := by decide
@[simp] theorem usedMask_add : usedMask 1 = packWord (allOnes 8) (allOnes 24) 0#6 (allOnes 24) 0#17 := by decide
@[simp] theorem usedMask_lerp : usedMask 2 = packWord (allOnes 8) (allOnes 24) 0#6 (allOnes 24) (allOnes 17) := by
  decide
@[simp] theorem usedMask_fade : usedMask 3 = packWord (allOnes 8) (allOnes 24) 0#6 0#24 (allOnes 17) := by decide
@[simp] theorem usedMask_wrpix : usedMask 4 = packWord (allOnes 8) (allOnes 24) (allOnes 6) 0#24 0#17 := by decide
@[simp] theorem usedMask_rdpix : usedMask 5 = packWord (allOnes 8) 0#24 (allOnes 6) 0#24 0#17 := by decide
@[simp] theorem usedMask_stres : usedMask 6 = packWord (allOnes 8) 0#24 (allOnes 6) 0#24 0#17 := by decide
@[simp] theorem usedMask_fill : usedMask 7 = packWord (allOnes 8) (allOnes 24) 0#6 0#24 0#17 := by decide
@[simp] theorem usedMask_encode : usedMask 8 = packWord (allOnes 8) 0#24 0#6 0#24 0#17 := by decide

/-- The mask of R89 selects the opcode and the two reserved fields. -/
theorem and_mask_eq_iff (w v : CommandWord) : w &&& mask = v &&& mask ↔
    fieldOp w = fieldOp v ∧ fieldRsv0 w = fieldRsv0 v ∧ fieldRsv1 w = fieldRsv1 v := by
  have hmask : fieldOp mask = allOnes 8 ∧ fieldA mask = 0#24 ∧ fieldRsv0 mask = allOnes 2 ∧ fieldIdx mask = 0#6 ∧
    fieldB mask = 0#24 ∧ fieldRsv1 mask = allOnes 15 ∧ fieldR mask = 0#17 := by decide
  simp [word_ext_iff, hmask, -reduceAllOnes]

/-- The word that the masks of R89 match is the opcode in an otherwise clear word. -/
theorem matchOf_eq_packWord {op : Nat} (h : op ≤ 8) : matchOf op = packWord (BitVec.ofNat 8 op) 0#24 0#6 0#24 0#17 := by
  interval_cases op <;> decide

/-- Mask and match compare the opcode with `op` and the reserved fields with zero (30_encoding.md R89). -/
theorem and_mask_eq_matchOf_iff (w : CommandWord) {op : Nat} (h : op ≤ 8) : w &&& mask = matchOf op ↔
    (fieldOp w).toNat = op ∧ fieldRsv0 w = 0#2 ∧ fieldRsv1 w = 0#15 := by
  have hself : matchOf op = matchOf op &&& mask := by interval_cases op <;> decide
  rw [hself, and_mask_eq_iff, matchOf_eq_packWord h, fieldOp_packWord, fieldRsv0_packWord, fieldRsv1_packWord,
    ← BitVec.toNat_inj, BitVec.toNat_ofNat, Nat.mod_eq_of_lt (by omega)]

theorem opcodeDefined_iff (w : CommandWord) : opcodeDefined w = true ↔ (fieldOp w).toNat ≤ 8 := by
  rw [opcodeDefined, toNat_shiftRight_88, decide_eq_true_iff]

theorem reserved0Clear_iff (w : CommandWord) : reserved0Clear w = true ↔ fieldRsv0 w = 0#2 := by
  have h0 : fieldRsv0 0xC000000000000000#96 = allOnes 2 := by decide
  have h1 : fieldRsv1 0xC000000000000000#96 = 0#15 := by decide
  rw [reserved0Clear, beq_iff_eq, and_eq_zero_iff_of_reserved w (by decide)]
  simp [h0, h1, -reduceAllOnes]

theorem reserved1Clear_iff (w : CommandWord) : reserved1Clear w = true ↔ fieldRsv1 w = 0#15 := by
  have h0 : fieldRsv0 0xFFFE0000#96 = 0#2 := by decide
  have h1 : fieldRsv1 0xFFFE0000#96 = allOnes 15 := by decide
  rw [reserved1Clear, beq_iff_eq, and_eq_zero_iff_of_reserved w (by decide)]
  simp [h0, h1, -reduceAllOnes]

/-- The well-formedness checks in terms of the fields (30_encoding.md R88). -/
theorem wellFormed_iff (w : CommandWord) :
    wellFormed w = true ↔ (fieldOp w).toNat ≤ 8 ∧ fieldRsv0 w = 0#2 ∧ fieldRsv1 w = 0#15 := by
  rw [wellFormed, Bool.and_eq_true, Bool.and_eq_true, opcodeDefined_iff, reserved0Clear_iff, reserved1Clear_iff,
    and_assoc]

end

/-! ### The decoder and the encoder -/

/-- What it takes to select the command `i` (30_encoding.md R87). -/
theorem decode_eq_ok_iff {w : CommandWord} {i : Instr} : decode w = .ok i ↔
    decodeOperands w (fieldOp w).toNat = some i ∧ fieldRsv0 w = 0#2 ∧ fieldRsv1 w = 0#15 := by
  rcases decode_cases w with ⟨hn, hd⟩ | ⟨j, hj, ⟨h0, h1, hd⟩ | ⟨hr, hd⟩⟩
  · simp [hn, hd]
  · simp [hj, hd, h0, h1]
  · simp [hd, hr]

theorem exists_decodeOperands_iff (w : CommandWord) (n : Nat) : (∃ i, decodeOperands w n = some i) ↔ n ≤ 8 := by
  rw [← Option.ne_none_iff_exists', Ne, decodeOperands_eq_none, not_lt]

/-- The opcode map names commands by their own opcodes. -/
theorem opcode_of_decodeOperands {w : CommandWord} {n : Nat} {i : Instr} (h : decodeOperands w n = some i) :
    i.opcode.toNat = n := by
  have hn : n ≤ 8 := (exists_decodeOperands_iff w n).1 ⟨i, h⟩
  interval_cases n <;> obtain rfl := Option.some.inj h <;> rfl

/-- Decoding reads only the bits its format uses (30_encoding.md R85). -/
theorem decodeOperands_and_usedMask (w : CommandWord) (n : Nat) :
    decodeOperands (w &&& CommandWord.usedMask n) n = decodeOperands w n := by
  by_cases hn : n ≤ 8
  · interval_cases n <;> simp [decodeOperands, -BitVec.reduceAllOnes]
  · rw [(decodeOperands_eq_none _ n).2 (by omega), (decodeOperands_eq_none _ n).2 (by omega)]

/-- The canonical word is the decoded word without the bits its format does not use (30_encoding.md R88 (c)). -/
theorem encodeInstr_of_decodeOperands {w : CommandWord} {n : Nat} {i : Instr} (hop : (fieldOp w).toNat = n)
    (h : decodeOperands w n = some i) : encodeInstr i = w &&& CommandWord.usedMask n := by
  have hn : n ≤ 8 := (exists_decodeOperands_iff w n).1 ⟨i, h⟩
  have hop : fieldOp w = BitVec.ofNat 8 n := by rw [← hop, BitVec.ofNat_toNat, BitVec.setWidth_eq]
  interval_cases n <;> obtain rfl := Option.some.inj h <;> simp [encodeInstr, and_packWord, hop, -BitVec.reduceAllOnes]

theorem decodeOperands_encodeInstr (i : Instr) : decodeOperands (encodeInstr i) i.opcode.toNat = some i := by
  cases i <;> simp [encodeInstr, Instr.opcode, decodeOperands]

/-- The canonical word of every command has its opcode and clear reserved bits. -/
theorem encodeInstr_checks (i : Instr) : Laws.Encoding.Statement i := by
  cases i with
  | nop => exact Laws.Encoding.nop
  | add a b => exact Laws.Encoding.add a b
  | lerp a b r => exact Laws.Encoding.lerp a b r
  | fade a r => exact Laws.Encoding.fade a r
  | wrpix i c => exact Laws.Encoding.wrpix i c
  | rdpix i => exact Laws.Encoding.rdpix i
  | stres i => exact Laws.Encoding.stres i
  | fill c => exact Laws.Encoding.fill c
  | encode => exact Laws.Encoding.encode

/-! ### The obligations about words -/

/-- Settles O4: the canonical word passes the decoder's checks, and its operands read back. -/
theorem decodeOfEncodeIsIdentity : Obligations.DecodeOfEncodeIsIdentity := by
  intro i
  obtain ⟨hop, h0, h1⟩ := encodeInstr_checks i
  exact decode_eq_ok_iff.2 ⟨hop ▸ decodeOperands_encodeInstr i, h0, h1⟩

/-- Settles O7: the opcode map has a command for the opcodes up to 8, and both sides check the same reserved fields. -/
theorem decodeAcceptsExactlyWellFormedWords : Obligations.DecodeAcceptsExactlyWellFormedWords := by
  intro w
  simp only [decode_eq_ok_iff, exists_and_right, exists_decodeOperands_iff, wellFormed_iff]

/-- The canonical word of the decoded command keeps the used bits of the word (30_encoding.md R88 (c)). -/
theorem encodeInstr_of_decode {w : CommandWord} {i : Instr} (h : decode w = .ok i) :
    encodeInstr i = w &&& CommandWord.usedMask (w >>> 88).toNat := by
  rw [toNat_shiftRight_88]
  exact encodeInstr_of_decodeOperands rfl (decode_eq_ok_iff.1 h).1

/-- The canonical word is canonical: it is what decoding and encoding it leaves of it. -/
theorem canonical_encodeInstr (i : Instr) : CommandWord.canonical (encodeInstr i) = true := by
  have hd := decodeOfEncodeIsIdentity i
  have hwf := (decodeAcceptsExactlyWellFormedWords _).1 ⟨i, hd⟩
  rw [CommandWord.canonical, hwf, Bool.true_and, beq_iff_eq]
  exact (encodeInstr_of_decode hd).symm

/-- Settles O5: the decoder reads, and the encoder writes, the used fields only. -/
theorem encodeOfDecodeZeroesUnusedFields : Obligations.EncodeOfDecodeZeroesUnusedFields :=
  fun _ i h => ⟨encodeInstr_of_decode h, canonical_encodeInstr i⟩

/-- Words that agree under a union of masks agree under each. -/
theorem and_eq_of_and_or_eq {w v m n : CommandWord} (h : w &&& (m ||| n) = v &&& (m ||| n)) :
    w &&& m = v &&& m ∧ w &&& n = v &&& n := by
  have hm : (m ||| n) &&& m = m := by ext i; simp +contextual
  have hn : (m ||| n) &&& n = n := by ext i; simp +contextual
  constructor
  · rw [← hm, ← BitVec.and_assoc, h, BitVec.and_assoc]
  · rw [← hn, ← BitVec.and_assoc, h, BitVec.and_assoc]

/-- Settles O6: the mask holds the opcode, the reserved bits and all that the opcode map reads. -/
theorem unusedFieldsAreIgnored : Obligations.UnusedFieldsAreIgnored := by
  intro w v h
  obtain ⟨hused, hmask⟩ := and_eq_of_and_or_eq h
  obtain ⟨hop, h0, h1⟩ := (and_mask_eq_iff w v).1 hmask
  rw [toNat_shiftRight_88] at hused
  have hoperands : decodeOperands w (fieldOp w).toNat = decodeOperands v (fieldOp v).toNat := by
    rw [← hop, ← decodeOperands_and_usedMask w, hused, decodeOperands_and_usedMask]
  rw [decode, decode, hoperands, h0, h1]

/-- Settles O8: mask and match test what the decoder tests, and a decoded command has the opcode of its word. -/
theorem maskAndMatchSelectCommand : Obligations.MaskAndMatchSelectCommand := by
  intro w op hop
  refine (and_mask_eq_matchOf_iff w hop).trans ⟨fun ⟨hw, hclear⟩ => ?_, fun ⟨i, hd, hi⟩ => ?_⟩
  · obtain ⟨i, hi⟩ := (exists_decodeOperands_iff w op).2 hop
    exact ⟨i, decode_eq_ok_iff.2 ⟨hw ▸ hi, hclear⟩, opcode_of_decodeOperands hi⟩
  · obtain ⟨hoperands, hclear⟩ := decode_eq_ok_iff.1 hd
    exact ⟨(opcode_of_decodeOperands hoperands).symm.trans hi, hclear⟩

/-- Settles O3: each word is decoded. -/
theorem workedWordsDecode : Obligations.WorkedWordsDecode := by
  unfold Obligations.WorkedWordsDecode
  decide

end Sys2Proof

namespace Sys2Proof.Machine

/-! ### The decode order at the command port -/

/-- A transferred word with a reserved opcode enters FAULT, whatever its other bits. -/
theorem step_of_opcode_gt {s : State} {w : CommandWord} (h : Presents s w) (hop : 8 < (fieldOp w).toNat) :
    step s = .next (raiseIllegal .illegalOpcode (takeWord (advancePins s))) := by
  rw [step_of_presents h, commandStep, decode, (decodeOperands_eq_none w _).2 hop]
  rfl

/-- A transferred word with a defined opcode and a reserved bit set enters FAULT. -/
theorem step_of_reserved {s : State} {w : CommandWord} (h : Presents s w) (hop : (fieldOp w).toNat ≤ 8)
    (hr : ¬(fieldRsv0 w = 0#2 ∧ fieldRsv1 w = 0#15)) :
    step s = .next (raiseIllegal .reservedBits (takeWord (advancePins s))) := by
  obtain ⟨i, hi⟩ := (exists_decodeOperands_iff w _).2 hop
  rw [step_of_presents h, commandStep, decode, hi]
  simp only [if_neg hr, rejectCause]

/-- Settles O2: the three outcomes of the decoder, in its order; each opcode names its command. -/
theorem decodeOrderOfTransferredWord : Obligations.DecodeOrderOfTransferredWord := by
  intro s w hw op a idx b r u
  split_ifs with hop hrsv
  · exact step_of_opcode_gt hw hop
  · exact step_of_reserved hw (not_lt.1 hop) (by tauto)
  · have hclear : fieldRsv0 w = 0#2 ∧ fieldRsv1 w = 0#15 := by tauto
    have hrun : ∀ {n i}, decodeOperands w n = some i → op = n → step s = exec i u := by
      rintro n i hi rfl
      exact stepRunsDecodedCommand s w i hw (decode_eq_ok_iff.2 ⟨hi, hclear⟩)
    exact ⟨hrun rfl, hrun rfl, hrun rfl, hrun rfl, hrun rfl, hrun rfl, hrun rfl, hrun rfl, hrun rfl⟩

/-! ### The assembler -/

/-- What an assembler with the range `P` and the meaning `Q` owes to a source command. -/
theorem assemble_spec {c : AsmCommand} {P : Prop} {Q : Instr → Prop} (hrange : asmInRange c = true ↔ P)
    (hmeaning : P → Q (asmInstr c)) :
    ((∃ w, assemble c = .ok w) ↔ P) ∧
    (P → ∃ w i, assemble c = .ok w ∧ CommandWord.canonical w = true ∧ decode w = .ok i ∧ Q i) ∧
    (¬P → assemble c = .error .outOfRange) := by
  by_cases h : asmInRange c = true
  · have hok : assemble c = .ok (encodeInstr (asmInstr c)) := if_pos h
    have hP : P := hrange.1 h
    exact ⟨⟨fun _ => hP, fun _ => ⟨_, hok⟩⟩, fun _ => ⟨_, _, hok, canonical_encodeInstr _, decodeOfEncodeIsIdentity _,
      hmeaning hP⟩, fun hn => absurd hP hn⟩
  · have herr : assemble c = .error .outOfRange := if_neg h
    have hP : ¬P := fun hp => h (hrange.2 hp)
    exact ⟨⟨fun ⟨_, hw⟩ => by simp [herr] at hw, fun hp => absurd hp hP⟩, fun hp => absurd hp hP, fun _ => herr⟩

/-- Settles O9: the ranges are the widths of the fields, so the operands in range are carried as they stand. -/
theorem assemblerEmitsCanonicalOrRejects : Obligations.AssemblerEmitsCanonicalOrRejects := by
  refine ⟨fun c => assemble_spec ?_ ?_, rfl, fun x => ?_⟩
  · cases c <;> simp [asmInRange, colorInRange, indexInRange, ratioInRange, and_assoc]
  · cases c <;> simp +contextual [asmInstr, Nat.mod_eq_of_lt]
  · simp [assemble, asmInRange, asmInstr, colorInRange]

end Sys2Proof.Machine

/-! Proofs of the colour arithmetic family (40_color_alu.md). First a colour as its lanes, then the exact value of LERP
and what it fixes of `LerpChan`, then `FadeChan` as `LerpChan` from black; then the obligations. -/

namespace Sys2Proof.Machine

/-! ### Colours by their lanes -/

/-- Colours with the same channel values are equal. -/
theorem color_ext_lanes {c d : Color} (h : ∀ ch ∈ [red, green, blue], (ch c).toNat = (ch d).toNat) : c = d :=
  color_ext (BitVec.eq_of_toNat_eq (h red (by simp))) (BitVec.eq_of_toNat_eq (h green (by simp)))
    (BitVec.eq_of_toNat_eq (h blue (by simp)))

theorem toNat_channel_le (v : Channel) : v.toNat ≤ 255 := Nat.le_of_lt_succ v.isLt

theorem lane_black : ∀ ch ∈ [red, green, blue], (ch 0x000000#24).toNat = 0 := by
  simp [red, green, blue]

theorem lane_white : ∀ ch ∈ [red, green, blue], (ch 0xFFFFFF#24).toNat = 255 := by
  simp [red, green, blue]

theorem lane_addColor (a b : Color) :
    ∀ ch ∈ [red, green, blue], (ch (addColor a b)).toNat = addChan (ch a).toNat (ch b).toNat := by
  intro ch hch
  rw [addColor, lane_mapLanes2 _ a b ch hch, toNat_channelOf (addChan_le _ _)]

theorem lane_lerpColor (a b : Color) (r : Ratio) :
    ∀ ch ∈ [red, green, blue], (ch (lerpColor a b r)).toNat = lerpChan (ch a).toNat (ch b).toNat r.toNat := by
  intro ch hch
  rw [lerpColor, lane_mapLanes2 _ a b ch hch, toNat_channelOf (lerpChan_le _ _ _)]

theorem lane_fadeColor (a : Color) (r : Ratio) :
    ∀ ch ∈ [red, green, blue], (ch (fadeColor a r)).toNat = fadeChan (ch a).toNat r.toNat := by
  intro ch hch
  rw [fadeColor, lane_mapLanes _ a ch hch, toNat_channelOf (fadeChan_le _ _)]

/-! ### `AddChan` -/

theorem addChan_comm (a b : Nat) : addChan a b = addChan b a := by
  rw [addChan, addChan, Nat.add_comm]

/-- Saturating early loses nothing: what was cut off lies above the ceiling of the whole sum. -/
theorem addChan_addChan (a b c : Nat) : addChan (addChan a b) c = min 255 (a + b + c) := by
  simp only [addChan]
  omega

theorem addChan_assoc (a b c : Nat) : addChan (addChan a b) c = addChan a (addChan b c) := by
  rw [addChan_comm a (addChan b c), addChan_addChan, addChan_addChan, Nat.add_assoc, Nat.add_comm]

theorem addChan_mono {a a' b b' : Nat} (ha : a ≤ a') (hb : b ≤ b') : addChan a b ≤ addChan a' b' :=
  min_le_min_left 255 (Nat.add_le_add ha hb)

theorem addChan_zero {a : Nat} (ha : a ≤ 255) : addChan a 0 = a := min_eq_right ha

theorem addChan_ceiling (a : Nat) : addChan a 255 = 255 := min_eq_left (Nat.le_add_left 255 a)

/-! ### The exact value of LERP -/

theorem lerpExact_eq (a b r : Nat) : lerpExact a b r = (a : Int) * 65536 + ((b : Int) - a) * r := rfl

theorem lerpExact_zero (a b : Nat) : lerpExact a b 0 = (a : Int) * 65536 := by
  simp [lerpExact_eq]

theorem lerpExact_one (a b : Nat) : lerpExact a b 65536 = (b : Int) * 65536 := by
  rw [lerpExact_eq]; push_cast; ring

theorem lerpExact_self (a r : Nat) : lerpExact a a r = (a : Int) * 65536 := by
  simp [lerpExact_eq]

/-- The line from `a` to `b` is the line from `b` to `a` walked backwards. -/
theorem lerpExact_mirror (a b : Nat) {r : Nat} (hr : r ≤ 65536) : lerpExact a b r = lerpExact b a (65536 - r) := by
  rw [lerpExact_eq, lerpExact_eq]; push_cast [hr]; ring

/-- A rising line rises, below and above ratio 1.0. -/
theorem lerpExact_mono {a b r r' : Nat} (hab : a ≤ b) (hr : r ≤ r') : lerpExact a b r ≤ lerpExact a b r' := by
  have hstep : ((b : Int) - a) * r ≤ ((b : Int) - a) * r' := mul_le_mul_of_nonneg_left (by omega) (by omega)
  simpa only [lerpExact_eq, add_le_add_iff_left] using hstep

theorem lerpExact_anti {a b r r' : Nat} (hba : b ≤ a) (hr : r ≤ r') : lerpExact a b r' ≤ lerpExact a b r := by
  have hstep : ((b : Int) - a) * r' ≤ ((b : Int) - a) * r := mul_le_mul_of_nonpos_left (by omega) (by omega)
  simpa only [lerpExact_eq, add_le_add_iff_left] using hstep

/-- Up to ratio 1.0 the exact value lies between the two ends of the line. -/
theorem lerpExact_between (a b : Nat) {r : Nat} (hr : r ≤ 65536) :
    ((min a b : Nat) : Int) * 65536 ≤ lerpExact a b r ∧ lerpExact a b r ≤ ((max a b : Nat) : Int) * 65536 := by
  rcases le_total a b with hab | hba
  · rw [min_eq_left hab, max_eq_right hab, ← lerpExact_zero a b, ← lerpExact_one a b]
    exact ⟨lerpExact_mono hab r.zero_le, lerpExact_mono hab hr⟩
  · rw [min_eq_right hba, max_eq_left hba, ← lerpExact_zero a b, ← lerpExact_one a b]
    exact ⟨lerpExact_anti hba hr, lerpExact_anti hba r.zero_le⟩

/-! ### What the exact value fixes of `LerpChan` -/

/-- `LerpChan` is the floor of the exact value, clamped at both ends. -/
theorem lerpChan_eq_clamp (a b r : Nat) : (lerpChan a b r : Int) = max 0 (min 255 (lerpExact a b r / 65536)) := by
  rw [lerpChan_cast]
  split <;> omega

theorem lerpChan_le_of_exact_le {a b r a' b' r' : Nat} (h : lerpExact a b r ≤ lerpExact a' b' r') :
    lerpChan a b r ≤ lerpChan a' b' r' := by
  have hl := lerpChan_eq_clamp a b r
  have hr := lerpChan_eq_clamp a' b' r'
  omega

theorem lerpChan_eq_of_exact {a b r c : Nat} (hc : c ≤ 255) (hlo : (c : Int) * 65536 ≤ lerpExact a b r)
    (hhi : lerpExact a b r < ((c : Int) + 1) * 65536) : lerpChan a b r = c := by
  have hv := lerpChan_eq_clamp a b r
  omega

theorem lerpChan_zero {a : Nat} (b : Nat) (ha : a ≤ 255) : lerpChan a b 0 = a :=
  lerpChan_eq_of_exact ha (lerpExact_zero a b).ge (by rw [lerpExact_zero]; omega)

theorem lerpChan_one (a : Nat) {b : Nat} (hb : b ≤ 255) : lerpChan a b 65536 = b :=
  lerpChan_eq_of_exact hb (lerpExact_one a b).ge (by rw [lerpExact_one]; omega)

theorem lerpChan_self {a : Nat} (r : Nat) (ha : a ≤ 255) : lerpChan a a r = a :=
  lerpChan_eq_of_exact ha (lerpExact_self a r).ge (by rw [lerpExact_self]; omega)

theorem lerpChan_mono {a b r r' : Nat} (hab : a ≤ b) (hr : r ≤ r') : lerpChan a b r ≤ lerpChan a b r' :=
  lerpChan_le_of_exact_le (lerpExact_mono hab hr)

theorem lerpChan_anti {a b r r' : Nat} (hba : b ≤ a) (hr : r ≤ r') : lerpChan a b r' ≤ lerpChan a b r :=
  lerpChan_le_of_exact_le (lerpExact_anti hba hr)

theorem lerpChan_mirror (a b : Nat) {r : Nat} (hr : r ≤ 65536) : lerpChan a b r = lerpChan b a (65536 - r) :=
  le_antisymm (lerpChan_le_of_exact_le (lerpExact_mirror a b hr).le)
    (lerpChan_le_of_exact_le (lerpExact_mirror a b hr).ge)

/-! ### `FadeChan` -/

/-- FADE is LERP from black, lane by lane, at every multiplier (40_color_alu.md R122). -/
theorem fadeChan_eq_lerpChan (a r : Nat) : fadeChan a r = lerpChan 0 a r := by
  have hexact : lerpExact 0 a r = ((a * r : Nat) : Int) := by simp [lerpExact_eq]
  have hv := lerpChan_eq_clamp 0 a r
  rw [hexact] at hv
  rw [fadeChan, ratioOne]
  omega

theorem fadeChan_mono {a a' r r' : Nat} (ha : a ≤ a') (hr : r ≤ r') : fadeChan a r ≤ fadeChan a' r' :=
  min_le_min_left 255 (Nat.div_le_div_right (Nat.mul_le_mul ha hr))

theorem fadeColor_eq_lerpColor (c : Color) (r : Ratio) : fadeColor c r = lerpColor 0x000000#24 c r := by
  refine color_ext_lanes fun ch hch => ?_
  rw [lane_fadeColor c r ch hch, lane_lerpColor _ c r ch hch, lane_black ch hch, fadeChan_eq_lerpChan]

/-! ### The arithmetic commands -/

theorem exec_add (a b : Color) (s : State) : exec (.add a b) s = .next (writeRes (addColor a b) s) := rfl

theorem exec_lerp (a b : Color) (r : Ratio) (s : State) :
    exec (.lerp a b r) s = .next (writeRes (lerpColor a b r) s) := rfl

theorem exec_fade (a : Color) (r : Ratio) (s : State) : exec (.fade a r) s = .next (writeRes (fadeColor a r) s) := rfl

/-- An arithmetic command writes the same colour to `RES` in every state (40_color_alu.md R110). -/
theorem exec_arithmetic {i : Instr} (hop : i.opcode ∈ [1#8, 2#8, 3#8]) : ∃ c, ∀ s, exec i s = .next (writeRes c s) := by
  cases i with
  | add a b => exact ⟨_, exec_add a b⟩
  | lerp a b r => exact ⟨_, exec_lerp a b r⟩
  | fade a r => exact ⟨_, exec_fade a r⟩
  | _ => exact absurd hop (by simp [Instr.opcode])

/-- The arithmetic opcodes read no operand field but `A`, `B` and `R` (30_encoding.md R85). -/
theorem decodeOperands_congr_of_arithmetic {w v : CommandWord} {op : BitVec 8} (hop : op ∈ [1#8, 2#8, 3#8])
    (ha : fieldA w = fieldA v) (hb : fieldB w = fieldB v) (hr : fieldR w = fieldR v) :
    decodeOperands w op.toNat = decodeOperands v op.toNat := by
  simp only [List.mem_cons, List.not_mem_nil, or_false] at hop
  rcases hop with rfl | rfl | rfl <;> simp [decodeOperands, ha, hb, hr]

/-- Well-formed words with the same arithmetic opcode and the same `A`, `B` and `R` are the same command. -/
theorem decode_congr_of_arithmetic {w v : CommandWord} (hw : w.wellFormed = true) (hv : v.wellFormed = true)
    (hop : fieldOp w ∈ [1#8, 2#8, 3#8]) (hopv : fieldOp w = fieldOp v) (ha : fieldA w = fieldA v)
    (hb : fieldB w = fieldB v) (hr : fieldR w = fieldR v) :
    ∃ i, i.opcode ∈ [1#8, 2#8, 3#8] ∧ decode w = .ok i ∧ decode v = .ok i := by
  obtain ⟨i, hi⟩ := (decodeAcceptsExactlyWellFormedWords w).2 hw
  obtain ⟨hoperands, -⟩ := decode_eq_ok_iff.1 hi
  obtain ⟨-, hclear⟩ := (wellFormed_iff v).1 hv
  have hopcode : i.opcode = fieldOp w := BitVec.eq_of_toNat_eq (opcode_of_decodeOperands hoperands)
  refine ⟨i, hopcode ▸ hop, hi, decode_eq_ok_iff.2 ⟨?_, hclear⟩⟩
  rw [← hopv, ← decodeOperands_congr_of_arithmetic hop ha hb hr, hoperands]

/-! ### The obligations about what the commands write -/

/-- Settles O10: ADD writes the colour whose lanes are `AddChan`. -/
theorem addWritesSaturatedChannelSums : Obligations.AddWritesSaturatedChannelSums :=
  fun a b s _ => ⟨_, exec_add a b s, lane_addColor a b, rfl⟩

/-- Settles O11: LERP writes the colour whose lanes are `LerpChan`, the truncated and clamped exact value. -/
theorem lerpWritesTruncatedInterpolation : Obligations.LerpWritesTruncatedInterpolation := by
  intro a b r s _
  refine ⟨_, exec_lerp a b r s, ?_, rfl⟩
  intro ch hch n
  rw [writeRes_res, lane_lerpColor a b r ch hch]
  exact lerpChan_cast _ _ _

/-- Settles O12: FADE writes the colour whose lanes are `FadeChan`. -/
theorem fadeWritesTruncatedProduct : Obligations.FadeWritesTruncatedProduct :=
  fun a r s _ => ⟨_, exec_fade a r s, lane_fadeColor a r, rfl⟩

/-- Settles O20: every lane of the three results is the lane function of that lane's operands. -/
theorem arithmeticLanesAreIndependent : Obligations.ArithmeticLanesAreIndependent := by
  intro a a' b b' r s s' _ _ ch hch ha hb
  refine ⟨⟨_, _, exec_add a b s, exec_add a' b' s', ?_⟩, ⟨_, _, exec_lerp a b r s, exec_lerp a' b' r s', ?_⟩,
    ⟨_, _, exec_fade a r s, exec_fade a' r s', ?_⟩⟩ <;> simp only [writeRes_res]
  · rw [addColor, addColor, lane_mapLanes2 _ a b ch hch, lane_mapLanes2 _ a' b' ch hch, ha, hb]
  · rw [lerpColor, lerpColor, lane_mapLanes2 _ a b ch hch, lane_mapLanes2 _ a' b' ch hch, ha, hb]
  · rw [fadeColor, fadeColor, lane_mapLanes _ a ch hch, lane_mapLanes _ a' ch hch, ha]

/-- Settles O21: the two words are one command, which writes one colour whatever the state. -/
theorem arithmeticDependsOnFieldsOnly : Obligations.ArithmeticDependsOnFieldsOnly := by
  intro s s' t t' w w' hw hw' hwf hwf' hop hopw ha hb hr ht ht'
  obtain ⟨i, hi, hd, hd'⟩ := decode_congr_of_arithmetic hwf hwf' hop hopw ha hb hr
  obtain ⟨c, hc⟩ := exec_arithmetic hi
  rw [stepRunsDecodedCommand s w i hw hd, hc] at ht
  rw [stepRunsDecodedCommand s' w' i hw' hd', hc] at ht'
  rw [← Host.Outcome.next.inj ht, ← Host.Outcome.next.inj ht', writeRes_res, writeRes_res]

/-! ### The obligations about the lane functions -/

/-- Settles O13: the laws of the saturated sum, whose ceiling the operands do not exceed. -/
theorem addChannelLaws : Obligations.AddChannelLaws := by
  intro a b c ha hb _
  refine ⟨addChan_comm a b, addChan_assoc a b c, addChan_addChan a b c, addChan_zero ha, addChan_ceiling a, ?_, ?_,
    min_eq_right_iff⟩
  · exact fun hbc => ⟨addChan_mono le_rfl hbc, addChan_mono hbc le_rfl⟩
  · exact le_min (max_le ha hb) (max_le (Nat.le_add_right a b) (Nat.le_add_left b a))

/-- Settles O14: the laws of `AddChan` in each lane; black and white have 0 and 255 in each. -/
theorem addColorLaws : Obligations.AddColorLaws := by
  intro a b c
  refine ⟨color_ext_lanes fun ch hch => ?_, color_ext_lanes fun ch hch => ?_, color_ext_lanes fun ch hch => ?_,
    color_ext_lanes fun ch hch => ?_⟩ <;> simp only [lane_addColor _ _ ch hch]
  · exact addChan_comm _ _
  · exact addChan_assoc _ _ _
  · rw [lane_black ch hch, addChan_zero (toNat_channel_le _)]
  · rw [lane_white ch hch, addChan_ceiling]

/-- Settles O15: up to ratio 1.0 the exact value lies between the ends of the line, so its floor is never clamped. -/
theorem lerpChannelInsideDomain : Obligations.LerpChannelInsideDomain := by
  intro a b r ha hb hr
  obtain ⟨hlo, hhi⟩ := lerpExact_between a b hr
  have hfloor : (lerpChan a b r : Int) = lerpExact a b r / 65536 := by
    have hv := lerpChan_eq_clamp a b r
    omega
  refine ⟨lerpChan_zero b ha, lerpChan_one a hb, ⟨by omega, by omega, hfloor⟩, by omega, fun r' hrr' _ => ?_,
    lerpChan_mirror a b hr, by decide, by omega⟩
  exact ⟨fun hab => lerpChan_mono hab hrr', fun hba => lerpChan_anti hba hrr'⟩

/-- Settles O16: the line goes on past `b`, which it reaches at ratio 1.0, and is clamped. -/
theorem lerpChannelBeyondOne : Obligations.LerpChannelBeyondOne := by
  refine ⟨fun a b r ha hb hr _ => ?_, by decide⟩
  have hv := lerpChan_eq_clamp a b r
  have hone := lerpChan_one a hb
  refine ⟨hv, fun hab => ?_, fun hba => ?_, fun hab => hab ▸ lerpChan_self r ha⟩
  · have hrise := lerpChan_mono hab.le hr.le
    exact ⟨by omega, lerpChan_le a b r, by omega⟩
  · have hfall := lerpChan_anti hba.le hr.le
    exact ⟨by omega, by omega⟩

/-- Settles O17: one step of ratio from an end of the line is less than one unit. -/
theorem lerpChannelCornerRatios : Obligations.LerpChannelCornerRatios := by
  intro a b ha hb
  have hfirst := lerpExact_eq a b 1
  have hlast := lerpExact_eq a b 65535
  have hv := lerpChan_eq_clamp a b 1
  have hv' := lerpChan_eq_clamp a b 65535
  exact ⟨fun _ => by omega, fun _ => by omega, fun hab r _ => hab ▸ lerpChan_self r ha⟩

/-- Settles O18: lane by lane, and hence as commands. -/
theorem fadeIsLerpFromBlack : Obligations.FadeIsLerpFromBlack := by
  refine ⟨fun a r _ _ => fadeChan_eq_lerpChan a r, fun c r s => ?_⟩
  rw [exec_fade, exec_lerp, fadeColor_eq_lerpColor]

/-- Settles O19: the ends are those of the line from black, and the product is monotone. -/
theorem fadeChannelProperties : Obligations.FadeChannelProperties := by
  intro a r ha _
  have hone : fadeChan a 65536 = a := (fadeChan_eq_lerpChan a 65536).trans (lerpChan_one 0 ha)
  refine ⟨(fadeChan_eq_lerpChan a 0).trans (lerpChan_zero a (by omega)), hone, fun hr => ?_, fun a' r' haa' _ hrr' _ => ?_,
    by decide, (fadeChan_eq_lerpChan 0 r).trans (lerpChan_self r (by omega))⟩
  · have hfloor : a * r / 65536 ≤ a := Nat.div_le_of_le_mul (Nat.mul_comm a r ▸ Nat.mul_le_mul_right a hr)
    have hvalue : fadeChan a r = a * r / 65536 := min_eq_right (hfloor.trans ha)
    exact ⟨hvalue, hvalue.trans_le hfloor⟩
  · exact ⟨fadeChan_mono haa' le_rfl, fadeChan_mono le_rfl hrr'⟩

end Sys2Proof.Machine

/-! Proofs about pixel access (41_pixel_access.md). First the equation of each command and of a repeated read; then what
a step in BUSY keeps; then the obligations. -/

namespace Sys2Proof.Machine

/-! ### The pixel commands -/

theorem exec_nop (s : State) : exec .nop s = .next s := rfl

theorem exec_wrpix (i : PixelIndex) (c : Color) (s : State) : exec (.wrpix i c) s = .next (writePixel i c s) := rfl

theorem exec_rdpix (i : PixelIndex) (s : State) : exec (.rdpix i) s = .next (writeRes (readPixel s i) s) := rfl

theorem exec_stres (i : PixelIndex) (s : State) : exec (.stres i) s = .next (writePixel i s.res s) := rfl

theorem exec_fill (c : Color) (s : State) : exec (.fill c) s = .next (fillPixels c s) := rfl

/-- Writing the colour `RES` already holds changes nothing. -/
@[simp] theorem writeRes_self (s : State) : writeRes s.res s = s := rfl

/-- `RES` is no part of the frame buffer. -/
@[simp] theorem readPixel_writeRes (c : Color) (s : State) (i : PixelIndex) :
    readPixel (writeRes c s) i = readPixel s i := rfl

/-- The pixel just written reads back (20_memory.md R57). -/
theorem readPixel_writePixel_same (i : PixelIndex) (c : Color) (s : State) : readPixel (writePixel i c s) i = c := by
  rw [readPixel_writePixel, if_pos rfl]

/-- RDPIX of a pixel that `RES` already holds changes nothing (20_memory.md R59). -/
theorem exec_rdpix_of_readPixel_eq {i : PixelIndex} {s : State} (h : readPixel s i = s.res) :
    exec (.rdpix i) s = .next s := by
  rw [exec_rdpix, h, writeRes_self]

/-! ### A step outside IDLE -/

/-- Outside IDLE no command is transferred, whatever the host presents (41_pixel_access.md R146). -/
theorem commandTransfer_of_not_idle {s : State} (hm : s.mode ≠ .idle) : commandTransfer s = false := by
  rw [Bool.eq_false_iff, Ne, commandTransfer_iff]
  exact fun ⟨_, hidle, _⟩ => hm hidle

/-- Outside IDLE a step without reset does not write `CAUSE`: no word is there to be illegal. -/
theorem step_cause_of_not_idle {s t : State} (hm : s.mode ≠ .idle) (hr : (pinsNow s).rst = false)
    (h : step s = .next t) : t.cause = s.cause := by
  rcases step_next_cases h with ⟨hr', _⟩ | ⟨_, ⟨rfl, _⟩ | ⟨_, _, _, hm', _⟩ | ⟨_, _, _, hm', _⟩ | ⟨_, _, _, rfl⟩ |
    ⟨_, _, _, rfl⟩⟩
  · simp [hr] at hr'
  · rfl
  · exact absurd hm' hm
  · exact absurd hm' hm
  · rfl
  · rfl

/-- Outside IDLE a step without reset does not write the data registers, as it takes no word. -/
theorem step_data_of_not_idle {s t : State} (hm : s.mode ≠ .idle) (hr : (pinsNow s).rst = false)
    (h : step s = .next t) : t.res = s.res ∧ t.fb = s.fb := by
  rcases step_data_cases h hr with hkept | ⟨w, i, ⟨_, hidle, _⟩, _⟩
  · exact hkept
  · exact absurd hidle hm

/-! ### The obligations about pixel access -/

/-- Settles O23: a read after the write of one pixel. -/
theorem wrpixWritesOnePixel : Obligations.WrpixWritesOnePixel :=
  fun i c s _ => ⟨_, exec_wrpix i c s, fun j => readPixel_writePixel s i j c, rfl⟩

/-- Settles O25: STRES is the write of `RES`, which the pixel then holds, so that RDPIX finds it in `RES`. -/
theorem stresStoresResult : Obligations.StresStoresResult := by
  intro i s _
  have hreads : readPixel (writePixel i s.res s) i = (writePixel i s.res s).res := readPixel_writePixel_same i s.res s
  exact ⟨_, exec_stres i s, fun j => readPixel_writePixel s i j s.res, rfl, exec_rdpix_of_readPixel_eq hreads⟩

/-- Settles O46: BUSY is not IDLE, so no command is transferred and neither a command nor the exception writes. -/
theorem busyTakesNoCommand : Obligations.BusyTakesNoCommand := by
  intro s t hbusy hr h
  have hm : s.mode ≠ .idle := by simp [hbusy]
  have hno := commandTransfer_of_not_idle hm
  have hwords : t.hostWords = s.hostWords := by
    rw [step_hostWords h, hno]
    rfl
  obtain ⟨hres, hfb⟩ := step_data_of_not_idle hm hr h
  exact ⟨hno, hwords, hfb, hres, step_cause_of_not_idle hm hr h⟩

/-- Settles O22: the state NOP answers is the one it was given. -/
theorem nopChangesNothing : Obligations.NopChangesNothing :=
  fun s _ => exec_nop s

/-- Settles O24: the read leaves the buffer alone, so the second read finds in `RES` the pixel it names. -/
theorem rdpixReadsPixelWithoutSideEffect : Obligations.RdpixReadsPixelWithoutSideEffect := by
  intro i s _
  have hreads : readPixel (writeRes (readPixel s i) s) i = (writeRes (readPixel s i) s).res := readPixel_writeRes _ s i
  exact ⟨_, exec_rdpix i s, writeRes_res _ s, rfl, exec_rdpix_of_readPixel_eq hreads⟩

/-- Settles O26: the buffer after FILL is the constant one, whatever the state before. -/
theorem fillWritesEveryPixel : Obligations.FillWritesEveryPixel := by
  intro c s s' _ _
  have hsame : (fillPixels c s).fb = (fillPixels c s').fb := (fillPixels_fb c s).trans (fillPixels_fb c s').symm
  exact ⟨_, _, exec_fill c s, exec_fill c s', readPixel_fillPixels s c, rfl, hsame⟩

end Sys2Proof.Machine

/-! Proofs of the frame encoder family (42_frame_encoder.md). First the bytes of the image and its first parts; then the
emit step, the state `n` bytes into a frame and the shape of the stream; then the obligations. -/

namespace Sys2Proof.Machine

/-! ### The byte of a bit -/

theorem encodeBit_inj {x y : Bool} : encodeBit x = encodeBit y ↔ x = y := by
  cases x <;> cases y <;> decide

theorem encodeBit_eq_on_iff {x : Bool} : encodeBit x = 0xFC#8 ↔ x = true := encodeBit_inj (y := true)

theorem encodeBit_eq_on_or_off (x : Bool) : encodeBit x = 0xFC#8 ∨ encodeBit x = 0xC0#8 := by
  cases x
  · exact .inr rfl
  · exact .inl rfl

theorem encodeBit_ne_trailer (x : Bool) : encodeBit x ≠ 0x00#8 := by
  cases x <;> decide

/-! ### A pixel as its bits -/

/-- A pixel is the bytes of its 24 bits, the most significant first (42_frame_encoder.md R163). -/
theorem encodePixel_eq_map (c : Color) :
    encodePixel c = (List.range 24).map fun q => encodeBit (c.getLsbD (23 - q)) := by
  apply List.ext_getElem?
  intro q
  by_cases hq : q < 24
  · rw [getElem?_encodePixel c hq, List.getElem?_map, List.getElem?_range hq, Option.map_some]
  · rw [List.getElem?_eq_none (by simpa using hq), List.getElem?_eq_none (by simpa using hq)]

theorem trailer_notMem_encodePixel (c : Color) : 0x00#8 ∉ encodePixel c := by
  simp [encodePixel_eq_map, encodeBit_ne_trailer]

/-- The order of the bits does not matter to their number. -/
theorem count_on_encodePixel (c : Color) :
    (encodePixel c).count 0xFC#8 = (List.range 24).countP fun k => c.getLsbD k := by
  have hrev : (List.range 24).map (23 - ·) = (List.range 24).reverse := by decide
  calc (encodePixel c).count 0xFC#8
      = ((List.range 24).map (23 - ·)).countP fun k => c.getLsbD k := by
        rw [encodePixel_eq_map, List.count, List.countP_map, List.countP_map]
        exact List.countP_congr fun q _ => by simp [encodeBit_eq_on_iff]
    _ = (List.range 24).countP fun k => c.getLsbD k := by rw [hrev, List.countP_reverse]

/-! ### The image: its bytes, its length and its first parts -/

theorem frameByte_trailer (f : FrameBuffer) : frameByte f 1536 = 0x00#8 := rfl

theorem frameByte_of_lt (f : FrameBuffer) {p : Nat} (hp : p < 1536) :
    frameByte f p = encodeBit ((f[p / 24]'(by omega)).getLsbD (23 - p % 24)) := dif_pos hp

theorem length_flatMap_encodePixel (f : FrameBuffer) : (f.toList.flatMap encodePixel).length = 1536 := by
  simp [List.length_flatMap]

@[simp] theorem length_encodeFrame (f : FrameBuffer) : (encodeFrame f).length = 1537 := by
  rw [encodeFrame, List.length_append, length_flatMap_encodePixel, List.length_singleton]

/-- A position lies in a pixel or past the last one. -/
theorem position_cases (p : Nat) : (∃ (j : Fin 64) (q : Nat), q < 24 ∧ p = 24 * j.val + q) ∨ 1536 ≤ p := by
  by_cases hp : p < 1536
  · exact .inl ⟨⟨p / 24, by omega⟩, p % 24, Nat.mod_lt _ (by decide), (Nat.div_add_mod p 24).symm⟩
  · exact .inr (by omega)

/-- Every bit of every pixel is read back at its position (42_frame_encoder.md R169 (d)). -/
theorem getLsbD_iff_getElem?_encodeFrame (f : FrameBuffer) (i : Fin 64) {q : Nat} (hq : q < 24) :
    f[i].getLsbD (23 - q) = true ↔ (encodeFrame f)[24 * i.val + q]? = some 0xFC#8 := by
  rw [getElem?_encodeFrame_pixel f i hq, Option.some_inj, encodeBit_eq_on_iff]

theorem encodeFrame_injective : Function.Injective encodeFrame := by
  refine fun f g h => fb_ext fun i => BitVec.eq_of_getLsbD_eq fun k hk => Bool.eq_iff_iff.2 ?_
  have hq : 23 - k < 24 := by omega
  have hbit : 23 - (23 - k) = k := by omega
  have hf := getLsbD_iff_getElem?_encodeFrame f i.toFin hq
  have hg := getLsbD_iff_getElem?_encodeFrame g i.toFin hq
  rw [hbit] at hf hg
  exact hf.trans (h ▸ hg.symm)

/-- Past the last pixel all images agree. -/
theorem getElem?_encodeFrame_of_ge (f g : FrameBuffer) {p : Nat} (hp : 1536 ≤ p) :
    (encodeFrame f)[p]? = (encodeFrame g)[p]? := by
  have hf : (f.toList.flatMap encodePixel).length ≤ p := by rwa [length_flatMap_encodePixel]
  have hg : (g.toList.flatMap encodePixel).length ≤ p := by rwa [length_flatMap_encodePixel]
  rw [encodeFrame, encodeFrame, List.getElem?_append_right hf, List.getElem?_append_right hg,
    length_flatMap_encodePixel, length_flatMap_encodePixel]

/-- The first part of the image grows by the byte at its end. -/
theorem take_succ_encodeFrame (f : FrameBuffer) {p : Nat} (hp : p ≤ 1536) :
    (encodeFrame f).take (p + 1) = (encodeFrame f).take p ++ [frameByte f p] := by
  rw [List.take_add_one, getElem?_encodeFrame f hp, Option.toList_some]

theorem take_1536_append_trailer (f : FrameBuffer) :
    (encodeFrame f).take 1536 ++ [frameByte f 1536] = encodeFrame f := by
  rw [← take_succ_encodeFrame f le_rfl, List.take_of_length_le (length_encodeFrame f).le]

theorem reverse_take_succ_encodeFrame (f : FrameBuffer) {p : Nat} (hp : p ≤ 1536) :
    ((encodeFrame f).take (p + 1)).reverse = frameByte f p :: ((encodeFrame f).take p).reverse := by
  rw [take_succ_encodeFrame f hp, List.reverse_concat]

theorem reverse_encodeFrame (f : FrameBuffer) :
    (encodeFrame f).reverse = frameByte f 1536 :: ((encodeFrame f).take 1536).reverse := by
  rw [← List.reverse_concat, take_1536_append_trailer]

/-- No byte of a pixel is the trailer, so the image holds it once, at its end (42_frame_encoder.md R169 (b)). -/
theorem trailer_notMem_flatMap_encodePixel (f : FrameBuffer) : 0x00#8 ∉ f.toList.flatMap encodePixel := by
  simp [trailer_notMem_encodePixel]

theorem count_trailer_encodeFrame (f : FrameBuffer) : (encodeFrame f).count 0x00#8 = 1 := by
  rw [encodeFrame, List.count_append, List.count_eq_zero.2 (trailer_notMem_flatMap_encodePixel f)]
  rfl

theorem count_trailer_take_encodeFrame (f : FrameBuffer) {p : Nat} (hp : p ≤ 1536) :
    ((encodeFrame f).take p).count 0x00#8 = 0 := by
  rw [encodeFrame, List.take_append_of_le_length (by rwa [length_flatMap_encodePixel])]
  exact List.count_eq_zero.2 fun hmem => trailer_notMem_flatMap_encodePixel f (List.mem_of_mem_take hmem)

/-! ### One bit flipped -/

theorem getLsbD_flip (c : Color) {k m : Nat} (hm : m < 24) :
    (c ^^^ (1#24 <<< k)).getLsbD m = (c.getLsbD m ^^ decide (k = m)) := by
  rw [BitVec.getLsbD_xor, ← BitVec.twoPow_eq, BitVec.getLsbD_twoPow]
  by_cases hkm : k = m
  · simp [hkm, hm]
  · simp [hkm]

/-- Element `q` of pixel `j`, after bit `k` of pixel `i` was flipped, differs exactly if it stands for that bit. -/
theorem getElem?_encodeFrame_flip_ne_iff (f : FrameBuffer) (i j : Fin 64) {k q : Nat} (hk : k < 24) (hq : q < 24) :
    (encodeFrame (f.set i.val (f[i] ^^^ (1#24 <<< k)) i.isLt))[24 * j.val + q]? ≠ (encodeFrame f)[24 * j.val + q]? ↔
      j = i ∧ q = 23 - k := by
  have hbit : k = 23 - q ↔ q = 23 - k := by omega
  rw [getElem?_encodeFrame_pixel _ j hq, getElem?_encodeFrame_pixel f j hq, Ne, Option.some_inj, encodeBit_inj]
  by_cases hji : j = i
  · subst hji
    have hxor : ∀ x y : Bool, (x ^^ y) = x ↔ y = false := by decide
    rw [Fin.getElem_fin, Vector.getElem_set_self, getLsbD_flip _ (by omega), hxor, decide_eq_false_iff_not, not_not,
      hbit, and_iff_right rfl]
  · have hne : i.val ≠ j.val := fun e => hji (Fin.ext e.symm)
    simp [hji, hne]

/-! ### The emit step -/

theorem exec_encode (s : State) : exec .encode s = .next (startFrame s) := rfl

theorem stream_emitByte (b : Byte) (s : State) : stream (emitByte b s) = stream s ++ [b] := List.reverse_cons

theorem step_of_busy {s : State} (hm : s.mode = .busy) (hr : (pinsNow s).rst = false) :
    step s = busyStep (pinsNow s).txReady (advancePins s) := by
  simp [step, transferStep, stepUnder, hm, hr]

/-- The sink not ready: the byte stays on offer (42_frame_encoder.md R167). -/
theorem step_of_stalled {s : State} (hm : s.mode = .busy) (hr : (pinsNow s).rst = false)
    (ht : (pinsNow s).txReady = false) : step s = .next (advancePins s) := by
  rw [step_of_busy hm hr, ht]
  rfl

/-- The sink ready inside the frame (42_frame_encoder.md R167). -/
theorem step_of_ready {s : State} (hm : s.mode = .busy) (hr : (pinsNow s).rst = false)
    (ht : (pinsNow s).txReady = true) (hp : s.pos.toNat < 1536) :
    step s = .next (nextPosition (emitByte (frameByte s.fb s.pos.toNat) (advancePins s))) := by
  rw [step_of_busy hm hr, ht]
  exact if_pos hp

/-- The sink ready at the trailer (42_frame_encoder.md R167). -/
theorem step_of_ready_at_trailer {s : State} (hm : s.mode = .busy) (hr : (pinsNow s).rst = false)
    (ht : (pinsNow s).txReady = true) (hp : s.pos.toNat = 1536) :
    step s = .next (endFrame (emitByte (frameByte s.fb s.pos.toNat) (advancePins s))) := by
  rw [step_of_busy hm hr, ht]
  exact (if_neg hp.not_lt).trans (if_pos hp)

/-! ### The state inside a frame -/

/-- The block `n` bytes into the frame that started from `b`, with the pin schedule `qs` ahead. -/
def inFlight (b : State) (n : Nat) (qs : List Pins) : State :=
  { b with
    mode := .busy, pos := BitVec.ofNat 11 n, emitted := ((encodeFrame b.fb).take n).reverse ++ b.emitted, pins := qs }

/-- The block after the frame that started from `b`. -/
def frameDone (b : State) (qs : List Pins) : State :=
  { b with mode := .idle, pos := 0#11, emitted := (encodeFrame b.fb).reverse ++ b.emitted, pins := qs }

theorem startFrame_eq_inFlight (b : State) : startFrame b = inFlight b 0 b.pins := rfl

theorem stream_frameDone (b : State) (qs : List Pins) : stream (frameDone b qs) = stream b ++ encodeFrame b.fb := by
  simp [stream, frameDone]

theorem toNat_pos_inFlight (b : State) {n : Nat} (qs : List Pins) (hn : n ≤ 1536) :
    (inFlight b n qs).pos.toNat = n := by
  simpa [inFlight] using Nat.mod_eq_of_lt (by omega : n < 2048)

theorem step_inFlight_stalled (b : State) (n : Nat) {q : Pins} (qs : List Pins) (hr : q.rst = false)
    (ht : q.txReady = false) : step (inFlight b n (q :: qs)) = .next (inFlight b n qs) :=
  step_of_stalled rfl hr ht

theorem step_inFlight_ready (b : State) {n : Nat} {q : Pins} (qs : List Pins) (hr : q.rst = false)
    (ht : q.txReady = true) (hn : n < 1536) : step (inFlight b n (q :: qs)) = .next (inFlight b (n + 1) qs) := by
  have hpos := toNat_pos_inFlight b (q :: qs) hn.le
  rw [step_of_ready (s := inFlight b n (q :: qs)) rfl hr ht (by rwa [hpos]), hpos, inFlight, inFlight,
    reverse_take_succ_encodeFrame b.fb hn.le, BitVec.ofNat_add]
  rfl

theorem step_inFlight_last (b : State) {q : Pins} (qs : List Pins) (hr : q.rst = false) (ht : q.txReady = true) :
    step (inFlight b 1536 (q :: qs)) = .next (frameDone b qs) := by
  have hpos := toNat_pos_inFlight b (q :: qs) le_rfl
  rw [step_of_ready_at_trailer (s := inFlight b 1536 (q :: qs)) rfl hr ht hpos, hpos, frameDone,
    reverse_encodeFrame]
  rfl

/-- Through a schedule without reset the frame moves on by the number of steps that found the sink ready. -/
theorem runSteps_inFlight (b : State) {n : Nat} (qs rest : List Pins) (hr : ∀ q ∈ qs, q.rst = false)
    (hn : n + qs.countP (fun q => q.txReady) ≤ 1536) :
    runSteps qs.length (inFlight b n (qs ++ rest)) =
      .next (inFlight b (n + qs.countP fun q => q.txReady) rest) := by
  induction qs generalizing n with
  | nil => rfl
  | cons q qs ih =>
    obtain ⟨hrq, hrqs⟩ := List.forall_mem_cons.1 hr
    cases ht : q.txReady with
    | false =>
      rw [List.countP_cons_of_neg (by simp [ht])] at hn ⊢
      exact (runSteps_succ _ (step_inFlight_stalled b n _ hrq ht)).trans (ih hrqs hn)
    | true =>
      rw [List.countP_cons_of_pos ht, ← Nat.add_assoc, Nat.add_right_comm] at hn ⊢
      exact (runSteps_succ _ (step_inFlight_ready b _ hrq ht (by omega))).trans (ih hrqs hn)

/-- A frame is done after 1537 steps that found the sink ready, none of them under reset (42_frame_encoder.md R168). -/
theorem runSteps_frame {b : State} {ps rest : List Pins} {q : Pins} (hpins : b.pins = ps ++ q :: rest)
    (hr : ∀ p ∈ ps, p.rst = false) (hcount : ps.countP (fun p => p.txReady) = 1536) (hrq : q.rst = false)
    (htq : q.txReady = true) : runSteps (ps.length + 1) (startFrame b) = .next (frameDone b rest) := by
  have hpixels := runSteps_inFlight b (n := 0) ps (q :: rest) hr (by omega)
  rw [Nat.zero_add, hcount] at hpixels
  rw [startFrame_eq_inFlight, hpins, runSteps_add _ 1 hpixels, runSteps_succ 0 (step_inFlight_last b rest hrq htq),
    runSteps_zero]

/-! ### The shape of the stream -/

/-- The shape speaks of `FB`, `POS` and the stream only. -/
theorem streamShape_congr {s t : State} (h : StreamShape s) (hfb : t.fb = s.fb) (hpos : t.pos = s.pos)
    (hemitted : t.emitted = s.emitted) : StreamShape t := by
  simpa only [StreamShape, stream, hfb, hpos, hemitted] using h

/-- With no image in flight the stream is whole images, whatever the buffer holds. -/
theorem streamShape_iff_of_pos_zero {s : State} (hpos : s.pos = 0#11) :
    StreamShape s ↔ ∃ done : List FrameBuffer, stream s = done.flatMap encodeFrame := by
  simp [StreamShape, hpos]

/-- A command in IDLE keeps the shape, though it may write the buffer. -/
theorem streamShape_exec {i : Instr} {s t : State} (hs : StreamShape s) (hpos : s.pos = 0#11)
    (h : exec i s = .next t) : StreamShape t := by
  have htpos : t.pos = 0#11 := by
    obtain ⟨_, ⟨_, _, hp⟩ | ⟨_, _, hp⟩⟩ := exec_control h
    · exact hp.trans hpos
    · exact hp
  obtain ⟨_, hemitted⟩ := exec_hostWords_emitted h
  rw [streamShape_iff_of_pos_zero htpos, stream, hemitted]
  exact (streamShape_iff_of_pos_zero hpos).1 hs

/-- A byte inside the frame extends the image in flight. -/
theorem streamShape_nextPosition {s : State} (hs : StreamShape s) (hp : s.pos.toNat < 1536) :
    StreamShape (nextPosition (emitByte (frameByte s.fb s.pos.toNat) s)) := by
  obtain ⟨done, hdone⟩ := hs
  refine ⟨done, (stream_emitByte _ s).trans ?_⟩
  have hpos : (nextPosition (emitByte (frameByte s.fb s.pos.toNat) s)).pos.toNat = s.pos.toNat + 1 :=
    toNat_pos_add_one hp
  rw [hdone, hpos, List.append_assoc, ← take_succ_encodeFrame s.fb hp.le]
  rfl

/-- The trailer makes the image in flight a whole one. -/
theorem streamShape_endFrame {s : State} (hs : StreamShape s) (hp : s.pos.toNat = 1536) :
    StreamShape (endFrame (emitByte (frameByte s.fb s.pos.toNat) s)) := by
  obtain ⟨done, hdone⟩ := hs
  refine (streamShape_iff_of_pos_zero rfl).2 ⟨done ++ [s.fb], (stream_emitByte _ s).trans ?_⟩
  rw [hdone, hp, List.append_assoc, take_1536_append_trailer, List.flatMap_append, List.flatMap_singleton]

/-! ### The obligations -/

/-- Settles O41: a command writes the buffer only while no image is in flight; an emit step appends the image's next
byte, and the last one completes it. -/
theorem stepKeepsStreamOfWholeFrames : Obligations.StepKeepsStreamOfWholeFrames := by
  intro s t hwf hs h
  have hadv : StreamShape (advancePins s) := streamShape_congr hs rfl rfl rfl
  have htake : StreamShape (takeWord (advancePins s)) := streamShape_congr hs rfl rfl rfl
  rcases step_next_cases h with ⟨_, rfl⟩ | ⟨_, ⟨rfl, _⟩ | ⟨w, ws, i, hm, _, _, he⟩ | ⟨_, _, _, _, _, _, rfl⟩ |
    ⟨_, _, hp, rfl⟩ | ⟨_, _, hp, rfl⟩⟩
  · exact ⟨[], rfl⟩
  · exact hadv
  · exact streamShape_exec htake (hwf.pos_of_not_busy (by simp [hm])) he
  · exact streamShape_congr htake rfl rfl rfl
  · exact streamShape_nextPosition hadv hp
  · exact streamShape_endFrame hadv hp

/-- Settles O31: the model's definition, its length and its elements. -/
theorem pixelEncodedRedGreenBlue : Obligations.PixelEncodedRedGreenBlue :=
  fun c => ⟨rfl, length_encodePixel c, fun _ hq => getElem?_encodePixel c hq⟩

/-- Settles O32: the element law of the image and the two cases of the closed form. -/
theorem frameByteIsElementOfImage : Obligations.FrameByteIsElementOfImage :=
  fun f _ hp =>
    ⟨getElem?_encodeFrame f hp, fun hlast => hlast ▸ frameByte_trailer f, fun _ hlt => frameByte_of_lt f hlt⟩

/-- Settles O34: every position before the trailer holds the byte of a bit. -/
theorem frameImageLengthAndBytes : Obligations.FrameImageLengthAndBytes := by
  intro f
  refine ⟨length_encodeFrame f, getElem?_encodeFrame f le_rfl, fun p hp => ?_⟩
  rw [getElem?_encodeFrame f hp.le, frameByte_of_lt f hp, Option.some_inj, Option.some_inj]
  exact encodeBit_eq_on_or_off _

/-- Settles O35: pixel by pixel; the trailer is not counted. -/
theorem frameImageCountsOneBits : Obligations.FrameImageCountsOneBits := by
  intro f
  have htrailer : [trailerByte].count 0xFC#8 = 0 := by decide
  rw [encodeFrame, List.count_append, htrailer, Nat.add_zero, List.count_flatMap]
  exact congrArg List.sum (List.map_congr_left fun c _ => count_on_encodePixel c)

/-- Settles O36: bit `23 - q` of pixel `i` is read at position `24 i + q`. -/
theorem frameImageIsInjective : Obligations.FrameImageIsInjective :=
  ⟨fun _ _ h => encodeFrame_injective h, fun f i _ hq => getLsbD_iff_getElem?_encodeFrame f i hq⟩

/-- Settles O37: a position lies in a pixel, where the flipped bit alone shows, or past the pixels. -/
theorem oneBitChangesOneByte : Obligations.OneBitChangesOneByte := by
  intro f i k hk p
  rcases position_cases p with ⟨j, q, hq, rfl⟩ | hp
  · rw [getElem?_encodeFrame_flip_ne_iff f i j hk hq, Fin.ext_iff]
    omega
  · rw [getElem?_encodeFrame_of_ge _ f hp]
    exact iff_of_false (fun hne => hne rfl) (by omega)

/-- Settles O39: the emit step inside the frame and at the trailer, and the wait. -/
theorem emitStepSendsOneByte : Obligations.EmitStepSendsOneByte := by
  intro s hm hp hr
  refine ⟨fun ht => ?_, fun ht => step_of_stalled hm hr ht⟩
  rcases hp.eq_or_lt with hlast | hlt
  · refine ⟨_, step_of_ready_at_trailer hm hr ht hlast, stream_emitByte _ _, fun _ => ⟨rfl, rfl⟩, fun _ => ?_, rfl⟩
    omega
  · refine ⟨_, step_of_ready hm hr ht hlt, stream_emitByte _ _, fun _ => ?_,
      fun _ => ⟨hm, toNat_pos_add_one hlt⟩, rfl⟩
    omega

/-- Settles O40: ENCODE starts the frame, the steps of `ps` emit the pixels' 1536 bytes, the last step the trailer. -/
theorem encodedFrameIsEmittedWhole : Obligations.EncodedFrameIsEmittedWhole := by
  intro s w p ps rest hw hd hpins hr hcount
  have hstart : step s = .next (startFrame (takeWord (advancePins s))) := stepRunsDecodedCommand s w .encode hw hd
  have hahead : (takeWord (advancePins s)).pins = ps ++ { rst := false, txReady := true } :: rest := by
    rw [takeWord_pins, advancePins_pins, hpins]
    rfl
  exact ⟨frameDone (takeWord (advancePins s)) rest,
    (runSteps_succ _ hstart).trans (runSteps_frame hahead hr hcount rfl rfl), stream_frameDone _ rest,
    rfl, rfl, rfl, rfl, rfl, rfl, rfl, rfl⟩

/-- Settles O42: each whole image has 1537 bytes and one trailer, and the image in flight none. -/
theorem streamLengthCountsFrames : Obligations.StreamLengthCountsFrames := by
  intro s done hp hs
  rw [hs]
  constructor
  · have hle : s.pos.toNat ≤ (encodeFrame s.fb).length := by rw [length_encodeFrame]; omega
    rw [List.length_append, List.length_take_of_le hle, List.length_flatMap]
    simp [Nat.mul_comm]
  · rw [List.count_append, count_trailer_take_encodeFrame s.fb hp, List.count_flatMap]
    simp [Function.comp_def, count_trailer_encodeFrame]

/-- Settles O30: the two bytes of a bit, and the length and the elements of a channel. -/
theorem channelEncodedMostSignificantFirst : Obligations.ChannelEncodedMostSignificantFirst :=
  ⟨rfl, rfl, fun v => ⟨length_encodeChannel v, fun _ hj => getElem?_encodeChannel v hj⟩⟩

/-- Settles O38: the byte on offer at position 0 is the image's first. -/
theorem encodeStartsFrame : Obligations.EncodeStartsFrame := by
  intro s _
  refine ⟨_, exec_encode s, rfl, fun hr => ?_⟩
  have hvalid : txValid (startFrame s) = true := (txValid_iff _).2 ⟨rfl, hr⟩
  refine ⟨rfl, rfl, hvalid, ?_⟩
  rw [txData_of_txValid hvalid, List.head?_eq_getElem?]
  exact (getElem?_encodeFrame s.fb (Nat.zero_le _)).symm

end Sys2Proof.Machine

/-! Proofs of the exceptions family (60_exceptions.md). First the three rules of table T-R199 that take no command and emit
no byte: the exception, reset and the wait; then a run of waits; then the obligations. -/

namespace Sys2Proof.Machine

/-! ### The exception, reset and the wait -/

/-- The exception is taken at the transfer of a word that decodes to no command (60_exceptions.md R193). -/
theorem step_of_rejected {s : State} {w : CommandWord} {e : DecodeReject} (h : Presents s w)
    (hd : decode w = .error e) : step s = .next (raiseIllegal (rejectCause e) (takeWord (advancePins s))) := by
  rw [step_of_presents h]
  rcases commandStep_cases w (takeWord (advancePins s)) with ⟨i, hi, _⟩ | ⟨e', he', hstep⟩
  · simp [hd] at hi
  · obtain rfl : e = e' := Except.error.inj (hd.symm.trans he')
    exact hstep

/-- Reset wins over every transfer (60_exceptions.md R195). -/
theorem step_of_reset {s : State} (hr : (pinsNow s).rst = true) : step s = .next (resetBlock (advancePins s)) := by
  rcases step_cases s with ⟨_, hstep⟩ | ⟨hr', _⟩
  · exact hstep
  · simp [hr] at hr'

/-- In FAULT a step without reset does nothing (60_exceptions.md R193). -/
theorem step_of_fault {s : State} (hm : s.mode = .fault) (hr : (pinsNow s).rst = false) :
    step s = .next (advancePins s) := by
  rcases step_cases s with ⟨hr', _⟩ | ⟨_, ⟨hm', _⟩ | ⟨_, _, hm', _⟩ | ⟨hm', _⟩ | ⟨hm', _⟩ | ⟨_, hstep⟩⟩
  · simp [hr] at hr'
  · simp [hm] at hm'
  · simp [hm] at hm'
  · simp [hm] at hm'
  · simp [hm] at hm'
  · exact hstep

/-- Reset reads only the environment and the number of resets (70_reset_and_hazards.md R221). -/
theorem resetBlock_congr {s s' : State} (hpins : s.pins = s'.pins) (hwords : s.hostWords = s'.hostWords)
    (hresets : s.resets = s'.resets) : resetBlock s = resetBlock s' := by
  simp only [resetBlock, hpins, hwords, hresets]

/-! ### A run of waits -/

/-- What holds of the whole pin schedule, and of the quiet pins after it, holds of the pins of the next step. -/
theorem pinsNow_of_forall {Q : Pins → Prop} {s : State} (hquiet : Q quietPins) (h : ∀ p ∈ s.pins, Q p) :
    Q (pinsNow s) := by
  unfold pinsNow
  cases hp : s.pins with
  | nil => exact hquiet
  | cons p ps => exact h p (by simp [hp])

/-- A block that waits, and goes on waiting, moves through its pin schedule and changes nothing else. -/
theorem runSteps_of_waits {Waits : State → Prop} (hstep : ∀ s, Waits s → step s = .next (advancePins s))
    (hkeep : ∀ s, Waits s → Waits (advancePins s)) (k : Nat) {s : State} (hs : Waits s) :
    runSteps k s = .next { s with pins := s.pins.drop k } := by
  induction k generalizing s with
  | zero => rfl
  | succ k ih =>
    rw [runSteps_succ k (hstep s hs), ih (hkeep s hs), advancePins_pins, List.drop_tail]
    rfl

/-- FAULT, with no reset in the pin schedule. -/
def FaultWithoutReset (s : State) : Prop := s.mode = .fault ∧ ∀ p ∈ s.pins, p.rst = false

theorem FaultWithoutReset.step_eq {s : State} (h : FaultWithoutReset s) : step s = .next (advancePins s) := by
  obtain ⟨hm, hr⟩ := h
  exact step_of_fault hm (pinsNow_of_forall (Q := fun p => p.rst = false) rfl hr)

theorem FaultWithoutReset.after_wait {s : State} (h : FaultWithoutReset s) : FaultWithoutReset (advancePins s) := by
  obtain ⟨hm, hr⟩ := h
  exact ⟨hm, fun p hp => hr p (List.mem_of_mem_tail hp)⟩

/-! ### The obligations -/

/-- Settles O56: the machine stops only beyond the frame, where no legal state is, and a step keeps the invariants. -/
theorem legalStatesNeverStop : Obligations.LegalStatesNeverStop := by
  intro s hs
  have hgoes : ¬Stops s := by
    rw [stopsExactlyOutsideFrame]
    rintro ⟨_, _, _, hbeyond⟩
    obtain ⟨hinside, _⟩ := hs
    omega
  obtain ⟨t, ht⟩ : ∃ t, step s = .next t := by simpa [Stops] using hgoes
  exact ⟨t, ht, stepKeepsStateInvariants s t hs ht⟩

/-- Settles O43: the exception writes `MODE` and `CAUSE` once the word is consumed, and FAULT offers nothing. -/
theorem illegalWordEntersFault : Obligations.IllegalWordEntersFault := by
  intro s w e hw hd
  exact ⟨_, step_of_rejected hw hd, rfl, by rintro rfl; rfl, by rintro rfl; rfl, rfl, rfl, rfl, rfl⟩

/-- Settles O44: FAULT waits at every step without reset. -/
theorem faultLastsUntilReset : Obligations.FaultLastsUntilReset := by
  intro s k hm hr
  have hrun := runSteps_of_waits (fun _ => FaultWithoutReset.step_eq) (fun _ => FaultWithoutReset.after_wait) k
    (s := s) ⟨hm, hr⟩
  exact ⟨_, hrun, hm, rfl⟩

/-- Settles O53: both states take the reset step, which reads nothing in which they may differ. -/
theorem nothingSurvivesReset : Obligations.NothingSurvivesReset := by
  intro s s' hr hpins hwords hresets
  have hr' : (pinsNow s').rst = true := by rwa [pinsNow, ← hpins]
  rw [step_of_reset hr, step_of_reset hr']
  exact congrArg _ (resetBlock_congr (congrArg List.tail hpins) hwords hresets)

end Sys2Proof.Machine

/-! Proofs of the reset and hazards family (70_reset_and_hazards.md). First the outputs that are forced or at rest; then
the two ways to wait for ever, on the sink in BUSY and on the host in IDLE; then the obligations. -/

namespace Sys2Proof.Machine

/-! ### The outputs at rest -/

theorem cmdReady_of_rst {s : State} (hr : (pinsNow s).rst = true) : cmdReady s = false := by simp [cmdReady, hr]

theorem txValid_of_rst {s : State} (hr : (pinsNow s).rst = true) : txValid s = false := by simp [txValid, hr]

theorem txValid_of_not_busy {s : State} (hm : s.mode ≠ .busy) : txValid s = false := by simp [txValid, hm]

/-- With no byte on offer the data output is zero (10_state.md R31). -/
theorem txData_of_not_txValid {s : State} (h : txValid s = false) : txData s = 0x00#8 := by
  rw [txData, h]
  rfl

/-- The status view of the registers of 10_state.md R39. -/
theorem status_of_idle {s : State} (hm : s.mode = .idle) (hc : s.cause = .none) : status s = 0#4 := by
  rw [status, causeOut, faultOut, busyOut, hm, hc]
  rfl

/-- Once reset is released the block shows the outputs of 10_state.md R39: ready for a command, nothing on offer. -/
theorem outputs_resetBlock {s : State} (hr : (pinsNow (resetBlock s)).rst = false) :
    status (resetBlock s) = 0#4 ∧ resOut (resetBlock s) = 0x000000#24 ∧ cmdReady (resetBlock s) = true ∧
      txValid (resetBlock s) = false ∧ txData (resetBlock s) = 0x00#8 := by
  have hvalid : txValid (resetBlock s) = false := txValid_of_not_busy (by simp)
  exact ⟨status_of_idle rfl rfl, rfl, (cmdReady_iff _).2 ⟨rfl, hr⟩, hvalid, txData_of_not_txValid hvalid⟩

/-! ### Waiting for the sink in BUSY -/

/-- BUSY, with neither reset nor a ready sink in the pin schedule (70_reset_and_hazards.md R233). -/
def Stalled (s : State) : Prop := s.mode = .busy ∧ ∀ p ∈ s.pins, p.rst = false ∧ p.txReady = false

theorem Stalled.pinsNow_eq {s : State} (h : Stalled s) : (pinsNow s).rst = false ∧ (pinsNow s).txReady = false := by
  obtain ⟨_, hpins⟩ := h
  exact pinsNow_of_forall (Q := fun p => p.rst = false ∧ p.txReady = false) ⟨rfl, rfl⟩ hpins

theorem Stalled.step_eq {s : State} (h : Stalled s) : step s = .next (advancePins s) := by
  obtain ⟨hr, ht⟩ := h.pinsNow_eq
  obtain ⟨hm, _⟩ := h
  exact step_of_stalled hm hr ht

theorem Stalled.after_drop {s : State} (h : Stalled s) (k : Nat) : Stalled { s with pins := s.pins.drop k } := by
  obtain ⟨hm, hpins⟩ := h
  exact ⟨hm, fun p hp => hpins p (List.mem_of_mem_drop hp)⟩

theorem Stalled.after_wait {s : State} (h : Stalled s) : Stalled (advancePins s) := by
  simpa [advancePins] using h.after_drop 1

theorem Stalled.runSteps_eq {s : State} (h : Stalled s) (k : Nat) :
    runSteps k s = .next { s with pins := s.pins.drop k } :=
  runSteps_of_waits (fun _ => Stalled.step_eq) (fun _ => Stalled.after_wait) k h

theorem Stalled.txValid_eq {s : State} (h : Stalled s) : txValid s = true := by
  obtain ⟨hr, _⟩ := h.pinsNow_eq
  obtain ⟨hm, _⟩ := h
  exact (txValid_iff s).2 ⟨hm, hr⟩

/-! ### Waiting for the host in IDLE -/

/-- With no word presented a step without reset does nothing, whatever the sink does (60_exceptions.md R205). -/
theorem step_of_endsWell {s : State} (h : EndsWell s) (hr : (pinsNow s).rst = false) :
    step s = .next (advancePins s) := by
  obtain ⟨hw, hm⟩ := h
  rcases step_cases s with ⟨hr', _⟩ | ⟨_, ⟨_, _, hstep⟩ | ⟨_, _, _, hw', _⟩ | ⟨hm', _⟩ | ⟨hm', _⟩ | ⟨hm', _⟩⟩
  · simp [hr] at hr'
  · exact hstep
  · simp [hw] at hw'
  · simp [hm] at hm'
  · simp [hm] at hm'
  · simp [hm] at hm'

/-- The end of a good run, with no reset in the pin schedule (70_reset_and_hazards.md R241). -/
def EndedWithoutReset (s : State) : Prop := EndsWell s ∧ ∀ p ∈ s.pins, p.rst = false

theorem EndedWithoutReset.step_eq {s : State} (h : EndedWithoutReset s) : step s = .next (advancePins s) := by
  obtain ⟨hend, hr⟩ := h
  exact step_of_endsWell hend (pinsNow_of_forall (Q := fun p => p.rst = false) rfl hr)

theorem EndedWithoutReset.after_wait {s : State} (h : EndedWithoutReset s) : EndedWithoutReset (advancePins s) := by
  obtain ⟨hend, hr⟩ := h
  exact ⟨hend, fun p hp => hr p (List.mem_of_mem_tail hp)⟩

/-! ### The obligations -/

/-- Settles O47: a stalled block only moves through its pin schedule, which leaves the byte on offer as it is. -/
theorem stalledSinkHangs : Obligations.StalledSinkHangs := by
  intro s hm hpins
  have hs : Stalled s := ⟨hm, hpins⟩
  refine ⟨fun k => ⟨_, hs.runSteps_eq k, hm⟩, fun k => ⟨_, hs.runSteps_eq k, rfl, ?_⟩⟩
  have hvalid := (hs.after_drop k).txValid_eq
  refine ⟨hvalid, ?_, ?_⟩
  · rw [txData_of_txValid hvalid, txData_of_txValid hs.txValid_eq]
  · rw [faultOut, hm]
    rfl

/-- Settles O48: an ended run waits at every step without reset. -/
theorem endedRunStaysEnded : Obligations.EndedRunStaysEnded := by
  intro s k hend hr
  have hrun := runSteps_of_waits (fun _ => EndedWithoutReset.step_eq) (fun _ => EndedWithoutReset.after_wait) k
    (s := s) ⟨hend, hr⟩
  exact ⟨_, hrun, hend, rfl⟩

/-- Settles O52: the outputs forced by reset, then the fields of the reset state and the outputs it shows. -/
theorem resetStepFromAnyState : Obligations.ResetStepFromAnyState := by
  intro s hr
  have hvalid := txValid_of_rst hr
  refine ⟨cmdReady_of_rst hr, hvalid, txData_of_not_txValid hvalid, _, step_of_reset hr, ?_⟩
  exact ⟨rfl, rfl, rfl, rfl, rfl, readPixel_resetBlock _, rfl, resetBlock_hostWords _, resetBlock_pins _,
    outputs_resetBlock⟩

end Sys2Proof.Machine
